-- ==== Sys2Proof/Word.lean ====
section
/-! DEFINITION. The word types of the VMAL core (spec 00 R7, R9, R10). -/

namespace Sys2Proof

/-- A `bits32`: every register, latch and data-memory word (00 R9, R10; `XLEN` of R7). -/
abbrev Word := BitVec 32

/-- One entry of the instruction store, `IWORD` = 40 bits (00 R7, 30 R71). -/
abbrev IWord := BitVec 40

/-- A register number, 0 to 15 (10 R20, R21; `NREG` of 00 R7): "an out-of-range register cannot reach
the execution engine" (30 R74), so the type has none. -/
abbrev Reg := Fin 16

/-- `0xFFFFFFFF`, the greatest `bits32`: the constant of register 7 (10 R23) and the PC value whose
increment overflows (40 R145). -/
abbrev allOnes32 : Word := 0xFFFFFFFF#32

/-- The greatest number of instructions a program may have (30 R115). -/
abbrev maxProgram : Nat := 2 ^ 32 - 1

end Sys2Proof
end

