-- ==== Sys2Proof/Config.lean ====
section
/-! DEFINITION. What is fixed when a machine is constructed: the two named parameters of 00 R7, and the
one value the spec leaves open, the wording of a diagnostic. -/

namespace Sys2Proof

/-- `PC_OVERFLOW_MODE`: what the PC update does when a non-jump leaves the PC at `0xFFFFFFFF` (40 R145). -/
inductive PcOverflowMode where
  | fault
  | wrap
  | saturate
  deriving DecidableEq, Repr

/-- The named parameters of 00 R7, chosen at construction and never changed afterwards (10 R42). -/
structure Config where
  /-- `PC_OVERFLOW_MODE` (40 R145). -/
  pcOverflowMode : PcOverflowMode
  /-- `CONST_REGS_HARDWIRED` (10 R24). -/
  constRegsHardwired : Bool
  deriving DecidableEq, Repr

/-- The defaults of 00 R7: mode `fault`, constant registers writable (UNVERIFIED, log entry 10). -/
def Config.standard : Config :=
  { pcOverflowMode := .fault, constRegsHardwired := false }

/-- FREE VALUE (log entry 15): the message text of a diagnostic, from its code, line number and line text.
"The wording of messages is not specified" (30 R112; 93 U6: any value). -/
opaque Config.diagWording (code line : Nat) (text : List Char) : List Char

end Sys2Proof
end

