-- ==== Sys2Proof/Syntax.lean ====
section
/-! DEFINITION. The resolved instructions, one constructor for each row of spec/opcode_table.json
(00 R2, 30 R70, R73), and the four formats they are encoded in (30 R72). -/

namespace Sys2Proof

/-- The closed set of 16 instructions (00 R2), in resolved form only: registers are numbers and a jump
carries the target field `I`, a `bits32` (00 R12, 30 R70, R74). -/
inductive Instr where
  /-- `SA X`: set MAR from a register (41 R170). -/
  | sa (x : Reg)
  /-- `RB X`: read the buffer into a register (41 R172). -/
  | rb (x : Reg)
  /-- `RD`: read memory at MAR into the buffer (41 R174). -/
  | rd
  /-- `WR`: write the buffer to memory at MAR (41 R176). -/
  | wr
  /-- `SB X`: set the buffer from a register (41 R178). -/
  | sb (x : Reg)
  /-- `SF X`: set the flags from a register (42 R190). -/
  | sf (x : Reg)
  /-- `GO I`: unconditional jump (42 R194). -/
  | go (i : Word)
  /-- `BIN I`: jump if negative (42 R196). -/
  | bin (i : Word)
  /-- `BIZ I`: jump if zero (42 R198). -/
  | biz (i : Word)
  /-- `ADD X,Y` (43 R210). -/
  | add (x y : Reg)
  /-- `AND X,Y` (43 R212). -/
  | and (x y : Reg)
  /-- `MV X,Y` (43 R214). -/
  | mv (x y : Reg)
  /-- `NOT X,Y` (43 R216). -/
  | not (x y : Reg)
  /-- `RS X,Y`: logical shift right by one (43 R218). -/
  | rs (x y : Reg)
  /-- `LS X,Y`: shift left by one (43 R220). -/
  | ls (x y : Reg)
  /-- `SW X,Y`: store a register at the address in a register (41 R180). -/
  | sw (x y : Reg)
  deriving DecidableEq, Repr

/-- The instruction formats of 30 R72. -/
inductive Format where
  /-- Zero-operand. -/
  | n
  /-- One register. -/
  | r1
  /-- Two registers. -/
  | r2
  /-- One target index. -/
  | j
  deriving DecidableEq, Repr

/-- The format column of 30 R73. -/
def Instr.format : Instr → Format
  | .rd | .wr => .n
  | .sa _ | .rb _ | .sb _ | .sf _ => .r1
  | .go _ | .bin _ | .biz _ => .j
  | .add _ _ | .and _ _ | .mv _ _ | .not _ _ | .rs _ _ | .ls _ _ | .sw _ _ => .r2

end Sys2Proof
end

