-- ==== Sys2Proof/WellFormed.lean ====
section
/-! DEFINITION. Well-formed instructions and programs. Register operands are in range by their type
(30 R74); what is left to check is that a program is resolved (30 R110) and not too long (30 R115). -/

namespace Sys2Proof

/-- A jump target of a program of `n` instructions: -1, stored as `0xFFFFFFFF`, or an index below `n`
(30 R110, R74). -/
def targetInRange (n : Nat) (i : Word) : Bool :=
  i == allOnes32 || decide (i.toNat < n)

/-- An instruction is well formed in a program of `n` instructions when its target, if it has one, is
one the resolution pass can leave (30 R110). -/
def Instr.wellFormed (n : Nat) : Instr → Bool
  | .go i | .bin i | .biz i => targetInRange n i
  | .rd | .wr => true
  | .sa _ | .rb _ | .sb _ | .sf _ => true
  | .add _ _ | .and _ _ | .mv _ _ | .not _ _ | .rs _ _ | .ls _ _ | .sw _ _ => true

/-- A program fits a machine: at most `2^32 - 1` instructions (30 R115). -/
def programFits (length : Nat) : Bool :=
  decide (length ≤ maxProgram)

/-- A program is well formed: it fits, and every target is resolved (30 R110, R115). -/
def programWellFormed (p : List Instr) : Bool :=
  programFits p.length && p.all (Instr.wellFormed p.length)

end Sys2Proof
end

