-- ==== Sys2Proof/Decode.lean ====
section
/-! DEFINITION. The decoder (30 R71 to R75, 40 R140), total on 40-bit words, and after it the encoder
(30 R78). -/

namespace Sys2Proof

/-- Field `OP`, `w[39:36]` (30 R71). -/
def opField (w : IWord) : BitVec 4 := w.extractLsb' 36 4

/-- Field `RX`, `w[35:32]` (30 R71). -/
def rxField (w : IWord) : BitVec 4 := w.extractLsb' 32 4

/-- Field `OPD`, `w[31:0]` (30 R71). -/
def opdField (w : IWord) : Word := w.extractLsb' 0 32

/-- Bits `OPD[31:4]`, zero in format R2 (30 R71). -/
def opdHighField (w : IWord) : BitVec 28 := (opdField w).extractLsb' 4 28

/-- Field `RY`, another name for `OPD[3:0]` (30 R71). -/
def ryField (w : IWord) : BitVec 4 := (opdField w).extractLsb' 0 4

/-- A 4-bit field as a register number: every value is a register (30 R74). -/
def regOfField (b : BitVec 4) : Reg := ⟨b.toNat, b.isLt⟩

/-- A register number as a 4-bit field. -/
def fieldOfReg (r : Reg) : BitVec 4 := BitVec.ofNat 4 r.val

/-- Operand X of a word (30 R74). -/
def operandX (w : IWord) : Reg := regOfField (rxField w)

/-- Operand Y of a word (30 R74). -/
def operandY (w : IWord) : Reg := regOfField (ryField w)

/-- The format of each opcode value (30 R73); all 16 are assigned (30 R75). -/
def formatOfOp (op : BitVec 4) : Format :=
  match op.toNat with
  | 0x2 | 0x3 => .n
  | 0x0 | 0x1 | 0x4 | 0x5 => .r1
  | 0x6 | 0x7 | 0x8 => .j
  | _ => .r2

/-- The must-be-zero bits of a format are zero (30 R75). -/
def mustBeZeroOk (f : Format) (w : IWord) : Bool :=
  match f with
  | .n => rxField w == 0#4 && opdField w == 0#32
  | .r1 => opdField w == 0#32
  | .j => rxField w == 0#4
  | .r2 => opdHighField w == 0#28

/-- `legal(w)` (30 R75). -/
def legal (w : IWord) : Bool :=
  mustBeZeroOk (formatOfOp (opField w)) w

/-- The instruction of the opcode map's row for the word's `OP` (30 R73, R74). Only `0xF` is left for the
last line. -/
def instrOfOp (w : IWord) : Instr :=
  match (opField w).toNat with
  | 0x0 => .sa (operandX w)
  | 0x1 => .rb (operandX w)
  | 0x2 => .rd
  | 0x3 => .wr
  | 0x4 => .sb (operandX w)
  | 0x5 => .sf (operandX w)
  | 0x6 => .go (opdField w)
  | 0x7 => .bin (opdField w)
  | 0x8 => .biz (opdField w)
  | 0x9 => .add (operandX w) (operandY w)
  | 0xA => .and (operandX w) (operandY w)
  | 0xB => .mv (operandX w) (operandY w)
  | 0xC => .not (operandX w) (operandY w)
  | 0xD => .rs (operandX w) (operandY w)
  | 0xE => .ls (operandX w) (operandY w)
  | _ => .sw (operandX w) (operandY w)

/-- What the decoder answers (40 R140): an instruction, or `Illegal` with the format whose must-be-zero
bits are not zero. -/
inductive Decoded where
  | instr (i : Instr)
  | illegal (violated : Format)
  deriving DecidableEq, Repr

/-- The decoder, total on 40-bit words (40 R140). -/
def decode (w : IWord) : Decoded :=
  if legal w then .instr (instrOfOp w) else .illegal (formatOfOp (opField w))

/-- The host's numbering of a table row's bits is that of 30 R71 (bit 0 least significant, one 40-bit
word); bits of `w` above `nbits`, and above 39, are none of the instruction's (log entry 9). -/
def tableWord (nbits w : Nat) : IWord :=
  BitVec.ofNat 40 (w % 2 ^ nbits)

/-- The instruction the decoder reads from an instruction whose bits are `w`. -/
def decodeTableWord (nbits w : Nat) : Option Instr :=
  match decode (tableWord nbits w) with
  | .instr i => some i
  | .illegal _ => none

/-- The word with these fields, `OP ++ RX ++ OPD` (30 R71). -/
def layout (op rx : BitVec 4) (opd : Word) : IWord := op ++ rx ++ opd

/-- `OPD` of format R2: `0x0000000 ++ Y` (30 R71, R78). -/
def opdOfY (y : Reg) : Word := 0#28 ++ fieldOfReg y

/-- Format N: `OP ++ 0x0 ++ 0x00000000` (30 R72, R78). -/
def encodeN (op : BitVec 4) : IWord := layout op 0#4 0x00000000#32

/-- Format R1: `OP ++ X ++ 0x00000000` (30 R72, R78). -/
def encodeR1 (op : BitVec 4) (x : Reg) : IWord := layout op (fieldOfReg x) 0x00000000#32

/-- Format J: `OP ++ 0x0 ++ I` (30 R72, R78). -/
def encodeJ (op : BitVec 4) (i : Word) : IWord := layout op 0#4 i

/-- Format R2: `OP ++ X ++ 0x0000000 ++ Y` (30 R72, R78). -/
def encodeR2 (op : BitVec 4) (x y : Reg) : IWord := layout op (fieldOfReg x) (opdOfY y)

/-- The encoder `enc` (30 R78). -/
def encode : Instr → IWord
  | .sa x => encodeR1 0x0#4 x
  | .rb x => encodeR1 0x1#4 x
  | .rd => encodeN 0x2#4
  | .wr => encodeN 0x3#4
  | .sb x => encodeR1 0x4#4 x
  | .sf x => encodeR1 0x5#4 x
  | .go i => encodeJ 0x6#4 i
  | .bin i => encodeJ 0x7#4 i
  | .biz i => encodeJ 0x8#4 i
  | .add x y => encodeR2 0x9#4 x y
  | .and x y => encodeR2 0xA#4 x y
  | .mv x y => encodeR2 0xB#4 x y
  | .not x y => encodeR2 0xC#4 x y
  | .rs x y => encodeR2 0xD#4 x y
  | .ls x y => encodeR2 0xE#4 x y
  | .sw x y => encodeR2 0xF#4 x y

/-- The store image of a resolved program (30 R116). -/
def storeImage (p : List Instr) : List IWord := p.map encode

end Sys2Proof
end

