-- ==== Sys2Proof/Machine/State.lean ====
section
/-! DEFINITION. The machine's state as plain data (10 R42), the reasons a step can stop, and the state
after reset (70 R260, R263). -/

namespace Sys2Proof.Machine

/-- Fault causes (60 R232). -/
inductive Cause where
  /-- Code 1: the fetched word is no instruction (30 R76). -/
  | illegalInstruction
  /-- Code 2: a non-jump left the PC at `0xFFFFFFFF` in mode `fault` (40 R145). -/
  | pcOverflow
  deriving DecidableEq, Repr

/-- Why no step is possible. Neither is raised by an instruction: a step that raises one of the spec's
faults completes with the fault latched in its next state (log entries 6 and 7). -/
inductive Fault where
  /-- Raised by `step` when `x[0] >= N_INSTR`: the run is over, nothing is fetched and nothing changes
  (40 R148, R150; 93 I3 "stuck"). Safe: the spec gives no further step. -/
  | halted
  /-- Raised by `step` when a fault is latched, with its cause and FAULT_IDX: nothing changes
  (40 R148, 60 R233; 93 I4 "stuck"). Safe: the spec gives no further step. -/
  | latched (c : Cause) (idx : Word)
  deriving DecidableEq, Repr

/-- What the model refuses. -/
inductive Refusal where
  /-- Raised by an arm of `exec` whose instruction has no meaning yet; no arm does. Safe. -/
  | notModelled (mnemonic : String)
  /-- Raised by `construct` for an image of more than `2^32 - 1` words: "a model refuses it"
  (30 R115; 93 I2). No step raises it. Safe. -/
  | programTooLong
  deriving DecidableEq, Repr


/-- The data memory: (word address, word) pairs, addresses strictly rising, no word equal to
`Memory.unlisted`, so that equal memories are equal lists. The unit is the 32-bit word, since "the memory is
word-addressed" and "no byte order is observable" (20 R50, R54; log entry 1). -/
abbrev Memory := List (Nat × Word)

/-- The machine. The first eight fields are the spec's own `State` (10 R42); `imem` and `cfg` are its
configuration, fixed per construction (10 R42; log entry 2); the last three are the run controller's
(10 R38). -/
structure State where
  /-- The register file; `x[0]` is the PC (10 R20, R22). -/
  x : Vector Word 16
  /-- The memory-address latch (10 R33). -/
  mar : Word
  /-- The memory-buffer latch (10 R34). -/
  mbr : Word
  /-- The negative flag (10 R31). -/
  n : Bool
  /-- The zero flag (10 R31). -/
  z : Bool
  /-- The data memory (10 R39, 20 R50). -/
  mem : Memory
  /-- The fault latch: cause and FAULT_IDX (10 R37, R42, 60 R232). -/
  fault : Option (Cause × Word)
  /-- The instruction store; `N_INSTR` is its length (10 R40, 20 R53). -/
  imem : List IWord
  /-- `PC_OVERFLOW_MODE` and `CONST_REGS_HARDWIRED` (00 R7). -/
  cfg : Config
  /-- `STEP_COUNT` (10 R38). -/
  stepCount : Nat
  /-- `LIMIT`, or no value: no budget (10 R38, 00 R7). -/
  limit : Option Int
  /-- `STOP_REQ` (10 R38). -/
  stopReq : Bool
  deriving DecidableEq, Repr

/-- What a step, or a transaction that may be refused, answers. -/
abbrev Result := Host.Outcome State Fault Refusal

/-- The machine right after `construct` with no initializer and no program, parameters at their defaults:
the reset-state table of 70 R263 (the values the spec decides: log entry 4; `limit`: log entry 5; the
program: log entry 3). -/
def State.reset : State where
  x := #v[0#32, 0#32, 0#32, 0#32, 0#32, 0#32, 1#32, 0xFFFFFFFF#32,
          0#32, 0#32, 0#32, 0#32, 0#32, 0#32, 0#32, 0#32]
  mar := 0#32
  mbr := 0#32
  n := false
  z := false
  mem := []
  fault := none
  imem := []
  cfg := Config.standard
  stepCount := 0
  limit := none
  stopReq := false

end Sys2Proof.Machine
end

