-- ==== Sys2Proof/Machine/Ops.lean ====
section
/-! DEFINITION. The named operations over the data memory, the register file, the latches, the fault latch,
the instruction store and the PC. Every meaning goes through these. -/

namespace Sys2Proof.Machine

/-! ### Data memory (20 R50 to R52) -/

/-- "unmapped addresses read as zero" (20 R51). -/
def Memory.unlisted : Word := 0#32

/-- The word at address `a` (20 R51). -/
def Memory.read : Memory → Nat → Word
  | [], _ => Memory.unlisted
  | (b, v) :: m, a => if b = a then v else Memory.read m a

/-- The memory with the word at `a` replaced by `v` (20 R52), kept canonical: writing what an unlisted
address reads as removes the entry (log entry 1). -/
def Memory.write : Memory → Nat → Word → Memory
  | [], a, v => if v = Memory.unlisted then [] else [(a, v)]
  | (b, u) :: m, a, v =>
    if a < b then
      if v = Memory.unlisted then (b, u) :: m else (a, v) :: (b, u) :: m
    else if a = b then
      if v = Memory.unlisted then m else (a, v) :: m
    else (b, u) :: Memory.write m a v

/-- Addresses rise strictly from `lo` on, each is a 32-bit address (20 R50), and no word is the unlisted
one. -/
def Memory.wfFrom : Nat → Memory → Bool
  | _, [] => true
  | lo, (a, v) :: m =>
    decide (lo ≤ a) && decide (a < 2 ^ 32) && decide (v ≠ Memory.unlisted) && Memory.wfFrom (a + 1) m

/-- The canonical form of the data memory. -/
def Memory.wf (m : Memory) : Bool := Memory.wfFrom 0 m

/-! ### Raw state updates -/

/-- Slot `r` of the register file takes `v`, whatever the configuration. -/
def State.setReg (s : State) (r : Reg) (v : Word) : State :=
  { s with x := s.x.set r.val v r.isLt }

/-- `MAR <- v`. -/
def State.setMar (s : State) (v : Word) : State := { s with mar := v }

/-- `MBR <- v`. -/
def State.setMbr (s : State) (v : Word) : State := { s with mbr := v }

/-- `N <- n; Z <- z`. -/
def State.setFlags (s : State) (n z : Bool) : State := { s with n := n, z := z }

/-- The data memory becomes `m`. -/
def State.setMem (s : State) (m : Memory) : State := { s with mem := m }

/-! ### Registers (10 R20 to R26) -/

/-- `x[r]` (10 R20). Register 0 reads the PC (10 R22, R28). -/
def State.readReg (s : State) (r : Reg) : Word := s.x[r]

/-- Registers 5, 6 and 7 (10 R23). -/
def isConstReg (r : Reg) : Bool := r == 5 || r == 6 || r == 7

/-- The constant of registers 5, 6 and 7: 0, 1 and `0xFFFFFFFF` (10 R23). -/
def constOf (r : Reg) : Word :=
  if r = 5 then 0x00000000#32 else if r = 6 then 0x00000001#32 else 0xFFFFFFFF#32

/-- `x[r] <- v` by an instruction: with `CONST_REGS_HARDWIRED = true` a write to register 5, 6 or 7 is
discarded (10 R24). -/
def State.writeReg (s : State) (r : Reg) (v : Word) : State :=
  if s.cfg.constRegsHardwired && isConstReg r then s else s.setReg r v

/-- `pc`, another name for `x[0]` (00 R11, 10 R22). -/
def State.pc (s : State) : Word := s.readReg 0

/-- `pc <- v` (00 R11). -/
def State.setPc (s : State) (v : Word) : State := s.setReg 0 v

/-! ### Memory access through the state -/

/-- `MemRead(a, 1)` (20 R51). -/
def State.readMem (s : State) (a : Word) : Word := Memory.read s.mem a.toNat

/-- `MemWrite(a, 1, v)` (20 R52). -/
def State.writeMem (s : State) (a v : Word) : State := s.setMem (Memory.write s.mem a.toNat v)

/-! ### Instruction store (20 R53) and fetch (40 R142) -/

/-- `N_INSTR` (00 R7, 20 R53). -/
def State.nInstr (s : State) : Nat := s.imem.length

/-- `IMem[x[0]]`, if `x[0] < N_INSTR` (40 R141, R142, R150: the comparison is unsigned). -/
def State.fetch (s : State) : Option IWord := s.imem[s.pc.toNat]?

/-! ### Taking a fault (60 R232, R236) -/

/-- `raise Fault(cause)`: the one way a fault is taken. It latches the cause and FAULT_IDX and changes
nothing else: there is no vector, no saved PC, no mode (60 R236). There is no return from a fault
(60 R237); only `construct` clears it (60 R233). -/
def State.raiseFault (s : State) (c : Cause) (idx : Word) : State :=
  { s with fault := some (c, idx) }

/-- The fetched word is illegal: `Fault(ILLEGAL_INSTRUCTION)` with FAULT_IDX = `x[0]`, before any effect
(30 R76, 40 R143, 60 R232). -/
def State.takeIllegal (s : State) : State := s.raiseFault .illegalInstruction s.pc

/-! ### The PC update (40 R144, R145) -/

/-- After a taken jump: `x[0] <- (x[0] + 1) mod 2^32` (40 R144). -/
def State.updateTaken (s : State) : State := s.setPc (s.pc + 1#32)

/-- After any other instruction, of index `k`: `x[0] + 1`, and out of `0xFFFFFFFF` as `PC_OVERFLOW_MODE`
says (40 R145, R156). -/
def State.updateNext (s : State) (k : Word) : State :=
  if s.pc ≠ allOnes32 then s.setPc (s.pc + 1#32)
  else
    match s.cfg.pcOverflowMode with
    | .fault => s.raiseFault .pcOverflow k
    | .wrap => s.setPc 0x00000000#32
    | .saturate => s

/-- An instruction of state `s` whose effect leaves `t` and which is no taken jump completes: the effect
and the PC update are one change of state (40 R146). -/
def retire (s t : State) : Result := .next (t.updateNext s.pc)

/-- A taken jump to target `i` completes: `x[0] <- i`, then the update of 40 R144. -/
def retireTaken (s : State) (i : Word) : Result := .next (s.setPc i).updateTaken

end Sys2Proof.Machine
end

