-- ==== Sys2Proof/Machine/Operands.lean ====
section
/-! DEFINITION. The operand forms (30 R72, R74): a source register and the address latch of a memory
transfer; a jump target is the target field itself. There are no immediates and no other addressing mode (00 R5, 30 R74). -/

namespace Sys2Proof.Machine

/-- A source register operand, read before any result is written (43 preamble). Register 0 reads the index
of the executing instruction (10 R28). -/
def srcReg (s : State) (r : Reg) : Word := s.readReg r

/-- The data address of RD and WR: MAR, unchanged (20 R50, R61). -/
def dataAddress (s : State) : Word := s.mar

end Sys2Proof.Machine
end

