-- ==== Sys2Proof/Machine/Alu.lean ====
section
/-! DEFINITION. ALU instructions (43): ADD, AND, MV, NOT, RS, LS. All arithmetic is unsigned modulo 2^32 and
writes no flag (43 R222). -/

namespace Sys2Proof.Machine

/-- `(a + b) mod 2^32` (43 R210). -/
def aluAdd (a b : Word) : Word := a + b

/-- `a & b` (43 R212). -/
def aluAnd (a b : Word) : Word := a &&& b

/-- `~a`, which is `a XOR 0xFFFFFFFF` (43 R216). -/
def aluNot (a : Word) : Word := ~~~a

/-- `a >> 1`, zero filling bit 31 (43 R218; log entry 11). -/
def aluRs (a : Word) : Word := a >>> 1

/-- `(a * 2) mod 2^32` (43 R220). -/
def aluLs (a : Word) : Word := a <<< 1

/-- ADD X,Y: `x[X] <- (x[X] + x[Y]) mod 2^32` (43 R210). -/
def execAdd (x y : Reg) (s : State) : Result :=
  retire s (s.writeReg x (aluAdd (srcReg s x) (srcReg s y)))

/-- AND X,Y: `x[X] <- x[X] & x[Y]` (43 R212). -/
def execAnd (x y : Reg) (s : State) : Result :=
  retire s (s.writeReg x (aluAnd (srcReg s x) (srcReg s y)))

/-- MV X,Y: `x[X] <- x[Y]` (43 R214). -/
def execMv (x y : Reg) (s : State) : Result := retire s (s.writeReg x (srcReg s y))

/-- NOT X,Y: `x[X] <- ~x[Y]` (43 R216). -/
def execNot (x y : Reg) (s : State) : Result := retire s (s.writeReg x (aluNot (srcReg s y)))

/-- RS X,Y: `x[X] <- x[Y] >> 1` (43 R218). -/
def execRs (x y : Reg) (s : State) : Result := retire s (s.writeReg x (aluRs (srcReg s y)))

/-- LS X,Y: `x[X] <- (x[Y] * 2) mod 2^32` (43 R220). -/
def execLs (x y : Reg) (s : State) : Result := retire s (s.writeReg x (aluLs (srcReg s y)))

end Sys2Proof.Machine
end

