-- ==== Sys2Proof/Machine/Flags.lean ====
section
/-! DEFINITION. The condition-flag generator (42 R190). SF is its only user (10 R31). -/

namespace Sys2Proof.Machine

/-- `Z <- (v = 0x00000000)` (42 R190). -/
def zeroFlag (v : Word) : Bool := v == 0x00000000#32

/-- `N <- (v[31] = 1)` (42 R190). -/
def negativeFlag (v : Word) : Bool := v.getLsbD 31

/-- Both flags, always, from the same value (42 R190). -/
def State.generateFlags (s : State) (v : Word) : State := s.setFlags (negativeFlag v) (zeroFlag v)

end Sys2Proof.Machine
end

