-- ==== Sys2Proof/Machine/Control.lean ====
section
/-! DEFINITION. The condition flags and the jumps (42): SF, GO, BIN, BIZ. -/

namespace Sys2Proof.Machine

/-- SF X: both flags from `x[X]` (42 R190). -/
def execSf (x : Reg) (s : State) : Result := retire s (s.generateFlags (srcReg s x))

/-- GO I: always taken (42 R194). -/
def execGo (i : Word) (s : State) : Result := retireTaken s i

/-- BIN I: taken if N (42 R196). -/
def execBin (i : Word) (s : State) : Result := if s.n then retireTaken s i else retire s s

/-- BIZ I: taken if Z (42 R198). -/
def execBiz (i : Word) (s : State) : Result := if s.z then retireTaken s i else retire s s

end Sys2Proof.Machine
end

