-- ==== Sys2Proof/Machine/Transfer.lean ====
section
/-! DEFINITION. Memory-transfer instructions (41): SA, RB, RD, WR, SB, SW. -/

namespace Sys2Proof.Machine

/-- SA X: `MAR <- x[X]` (41 R170). -/
def execSa (x : Reg) (s : State) : Result := retire s (s.setMar (srcReg s x))

/-- RB X: `x[X] <- MBR` (41 R172). -/
def execRb (x : Reg) (s : State) : Result := retire s (s.writeReg x s.mbr)

/-- RD: `MBR <- MemRead(MAR, 1)` (41 R174). -/
def execRd (s : State) : Result := retire s (s.setMbr (s.readMem (dataAddress s)))

/-- WR: `MemWrite(MAR, 1, MBR)` (41 R176). -/
def execWr (s : State) : Result := retire s (s.writeMem (dataAddress s) s.mbr)

/-- SB X: `MBR <- x[X]` (41 R178). -/
def execSb (x : Reg) (s : State) : Result := retire s (s.setMbr (srcReg s x))

/-- SW X,Y: `MAR <- x[X]`, then `MBR <- x[Y]`, then `MemWrite(MAR, 1, MBR)` (41 R180). -/
def execSw (x y : Reg) (s : State) : Result :=
  let t := (s.setMar (srcReg s x)).setMbr (srcReg s y)
  retire s (t.writeMem (dataAddress t) t.mbr)

end Sys2Proof.Machine
end

