-- ==== Sys2Proof/Machine/Dispatch.lean ====
section
/-! DEFINITION. The effect dispatch (40 R157): one arm per instruction. Each meaning is the effect with the
PC update that follows it, which are one indivisible change of state (40 R146; log entry 8). -/

namespace Sys2Proof.Machine

def exec (i : Instr) (s : State) : Host.Outcome State Fault Refusal :=
  match i with
  -- memory transfer (41)
  | .sa x => Sys2Proof.Machine.execSa x s
  | .rb x => Sys2Proof.Machine.execRb x s
  | .rd => Sys2Proof.Machine.execRd s
  | .wr => Sys2Proof.Machine.execWr s
  | .sb x => Sys2Proof.Machine.execSb x s
  -- flags and control (42)
  | .sf x => Sys2Proof.Machine.execSf x s
  | .go t => Sys2Proof.Machine.execGo t s
  | .bin t => Sys2Proof.Machine.execBin t s
  | .biz t => Sys2Proof.Machine.execBiz t s
  -- ALU (43)
  | .add x y => Sys2Proof.Machine.execAdd x y s
  | .and x y => Sys2Proof.Machine.execAnd x y s
  | .mv x y => Sys2Proof.Machine.execMv x y s
  | .not x y => Sys2Proof.Machine.execNot x y s
  | .rs x y => Sys2Proof.Machine.execRs x y s
  | .ls x y => Sys2Proof.Machine.execLs x y s
  -- memory transfer (41 R180)
  | .sw x y => Sys2Proof.Machine.execSw x y s

end Sys2Proof.Machine
end

