-- ==== Sys2Proof/Machine/Step.lean ====
section
/-! DEFINITION. One step (40 R141 to R146, R156), and where the host's fetch word goes. -/

namespace Sys2Proof.Machine

/-- One fetch-execute step. It is possible only in state READY (40 R141); a latched fault or a PC at or
above `N_INSTR` leaves no step (40 R148). A fault that the step itself raises is in its next state
(log entry 6). -/
def step (s : State) : Host.Outcome State Fault Refusal :=
  match s.fault with
  | some (c, k) => .fault (.latched c k)
  | none =>
    match s.fetch with
    | none => .fault .halted
    | some w =>
      match decode w with
      | .illegal _ => .next s.takeIllegal
      | .instr i => exec i s

/-- The word that fills the store below the PC when it is shorter: `RD`, which the step never reaches. -/
def fillerWord : IWord := 0x2000000000#40

/-- `l` with word `w` at index `k`, made long enough. -/
def placeWord (l : List IWord) (k : Nat) (w : IWord) : List IWord :=
  if k < l.length then l.set k w
  else l ++ List.replicate (k - l.length) fillerWord ++ [w]

/-- The host's word where `step` fetches next: in the store at index `x[0]`, with no fault latched, which
is all that a step needs (40 R141; log entry 3). It stands for the load that `construct` performs. -/
def State.withFetchWord (s : State) (nbits w : Nat) : State :=
  { s with imem := placeWord s.imem s.pc.toNat (tableWord nbits w), fault := none }

end Sys2Proof.Machine
end

