-- ==== Sys2Proof/Machine/AsmText.lean ====
section
/-! DEFINITION. Text handling and the numeric literal parser of the assembler (30 R91, R92, R94). Text is a
list of characters (log entry 14). -/

namespace Sys2Proof.Machine

/-- A piece of source text. -/
abbrev Text := List Char

/-- Space, tab, line feed, vertical tab, form feed, carriage return (30 R94). -/
def isWs (c : Char) : Bool :=
  c.toNat == 0x20 || c.toNat == 0x09 || c.toNat == 0x0A || c.toNat == 0x0B || c.toNat == 0x0C
    || c.toNat == 0x0D

/-- Surrounding whitespace removed (30 R94). -/
def trim (t : Text) : Text := ((t.dropWhile isWs).reverse.dropWhile isWs).reverse

/-- The text before the first `c` and, if there is one, the text after it. -/
def splitFirst (c : Char) : Text → Text × Option Text
  | [] => ([], none)
  | d :: t =>
    if d = c then ([], some t)
    else
      let (before, after) := splitFirst c t
      (d :: before, after)

/-- The pieces between the `c`s: one more than there are `c`s. -/
def splitAll (c : Char) : Text → List Text
  | [] => [[]]
  | d :: t =>
    if d = c then [] :: splitAll c t
    else
      match splitAll c t with
      | [] => [[d]]
      | p :: ps => (d :: p) :: ps

/-- The value of a hexadecimal digit, `0-9`, `A-F` or `a-f` (30 R92, R105). -/
def hexDigitValue (c : Char) : Option Nat :=
  let k := c.toNat
  if 0x30 ≤ k ∧ k ≤ 0x39 then some (k - 0x30)
  else if 0x41 ≤ k ∧ k ≤ 0x46 then some (k - 0x41 + 10)
  else if 0x61 ≤ k ∧ k ≤ 0x66 then some (k - 0x61 + 10)
  else none

/-- The value of a digit of the base, if it is one. -/
def digitValue (base : Nat) (c : Char) : Option Nat :=
  match hexDigitValue c with
  | some d => if d < base then some d else none
  | none => none

/-- Digits of the base read after the value `acc`; `none` if one is no digit of the base. -/
def digitsValue (base : Nat) : Nat → Text → Option Nat
  | acc, [] => some acc
  | acc, c :: t =>
    match digitValue base c with
    | some d => digitsValue base (acc * base + d) t
    | none => none

/-- One or more digits of the base (30 R92). -/
def parseNat (base : Nat) : Text → Option Nat
  | [] => none
  | c :: t => digitsValue base 0 (c :: t)

/-- A literal's value, `v mod 2^32` with the non-negative remainder (30 R91, R92; log entry 16); `none` is
no literal. The prefixes are lower-case and a sign stands on decimal only (30 R92). -/
def parseLiteral : Text → Option Word
  | '0' :: 'x' :: ds => (parseNat 16 ds).map (BitVec.ofNat 32)
  | '0' :: 'b' :: ds => (parseNat 2 ds).map (BitVec.ofNat 32)
  | '-' :: ds => (parseNat 10 ds).map (fun v => BitVec.ofInt 32 (-(v : Int)))
  | '+' :: ds => (parseNat 10 ds).map (BitVec.ofNat 32)
  | ds => (parseNat 10 ds).map (BitVec.ofNat 32)

/-- A register token: exactly one hexadecimal digit, of either case (10 R21, 30 R105). -/
def parseReg : Text → Option Reg
  | [c] =>
    match hexDigitValue c with
    | some d => if h : d < 16 then some ⟨d, h⟩ else none
    | none => none
  | _ => none

/-- `A-Z`, `a-z` or `_`. -/
def isIdentStart (c : Char) : Bool :=
  let k := c.toNat
  (decide (0x41 ≤ k) && decide (k ≤ 0x5A)) || (decide (0x61 ≤ k) && decide (k ≤ 0x7A)) || k == 0x5F

/-- A start character or `0-9`. -/
def isIdentRest (c : Char) : Bool :=
  isIdentStart c || (decide (0x30 ≤ c.toNat) && decide (c.toNat ≤ 0x39))

/-- Identifier syntax, `[A-Za-z_][A-Za-z0-9_]*` (30 R106). -/
def isIdentifier : Text → Bool
  | [] => false
  | c :: t => isIdentStart c && t.all isIdentRest

/-- An ASCII lower-case letter in upper case, any other character as it is (30 R102; log entry 14). -/
def upperChar (c : Char) : Char :=
  if 0x61 ≤ c.toNat ∧ c.toNat ≤ 0x7A then Char.ofNat (c.toNat - 0x20) else c

end Sys2Proof.Machine
end

