-- ==== Sys2Proof/Machine/Transactions.lean ====
section
/-! DEFINITION. The host interface (40 R147 to R162): `construct`, `step`, `run` with its budget and stop
request, the read accessors, and the debugger's continue (60 R242). -/

namespace Sys2Proof.Machine

/-! ### `construct` (40 R159, 70 R260) -/

/-- Register initializers in input order, the last write to a register wins (10 R27, 70 R260 step 2). -/
def applyRegInits (inits : List (Reg × Word)) (s : State) : State :=
  inits.foldl (fun t p => t.setReg p.1 p.2) s

/-- Registers 5, 6 and 7 are forced, whatever initializer names them (10 R23, 70 R260 step 3). -/
def forceConstRegs (s : State) : State :=
  ((s.setReg 5 (constOf 5)).setReg 6 (constOf 6)).setReg 7 (constOf 7)

/-- Memory initializers in input order, the last one for an address wins (20 R60, 70 R260 step 4). -/
def applyMemInits (inits : List (Word × Word)) (s : State) : State :=
  inits.foldl (fun t p => t.writeMem p.1 p.2) s

/-- Step 1 of the reset sequence: every register, latch, flag and memory word zero, no fault, and the run
controller's values as a new instance has them (70 R260). -/
def zeroedState (cfg : Config) : State :=
  { State.reset with x := Vector.replicate 16 0x00000000#32, cfg := cfg }

/-- The five steps of the reset sequence, in order (70 R260). -/
def constructed (cfg : Config) (regInits : List (Reg × Word)) (memInits : List (Word × Word))
    (image : List IWord) : State :=
  { applyMemInits memInits (forceConstRegs (applyRegInits regInits (zeroedState cfg))) with imem := image }

/-- `construct(reg_inits, mem_inits, image)` for a machine of configuration `cfg` (40 R159, 70 R260). An image
that is too long is refused (30 R115, 93 I2; log entry 17). -/
def construct (cfg : Config) (regInits : List (Reg × Word)) (memInits : List (Word × Word))
    (image : List IWord) : Result :=
  if programFits image.length then .next (constructed cfg regInits memInits image)
  else .refused .programTooLong

/-! ### Read accessors (40 R161) and the status word (10 R37) -/

/-- Codes of the causes; 0 is none (10 R37, 60 R232). -/
def Cause.code : Cause → BitVec 4
  | .illegalInstruction => 1#4
  | .pcOverflow => 2#4

/-- `STATUS.STATE` (10 R37). The reserved value 3 is none of them. -/
inductive RunState where
  | ready
  | halted
  | faulted
  deriving DecidableEq, Repr

/-- `STATUS[1:0]` of a run state (10 R37). -/
def RunState.code : RunState → BitVec 2
  | .ready => 0#2
  | .halted => 1#2
  | .faulted => 2#2

/-- READY and HALTED are computed from `x[0]`, FAULTED is latched (10 R37). -/
def State.runState (s : State) : RunState :=
  match s.fault with
  | some _ => .faulted
  | none => if s.pc.toNat < s.nInstr then .ready else .halted

/-- `STATUS.CAUSE` (10 R37). -/
def State.causeCode (s : State) : BitVec 4 :=
  match s.fault with
  | some (c, _) => c.code
  | none => 0#4

/-- `FAULT_IDX` (10 R37). -/
def State.faultIdx (s : State) : Word :=
  match s.fault with
  | some (_, k) => k
  | none => 0#32

/-- `STATUS`: STATE in bits 1:0, CAUSE in bits 7:4, every other bit 0 (10 R37). -/
def State.status (s : State) : BitVec 32 :=
  0#24 ++ s.causeCode ++ 0#2 ++ s.runState.code

/-- `read_mem(a)` (40 R161). -/
def State.peekMem (s : State) (a : Word) : Word := s.readMem a

/-- `read_reg(i)` (40 R161). -/
def State.peekReg (s : State) (i : Reg) : Word := s.readReg i

/-- `read_flags()`: `(N, Z)` (40 R161). -/
def State.peekFlags (s : State) : Bool × Bool := (s.n, s.z)

/-- `read_mar()` (40 R161). -/
def State.peekMar (s : State) : Word := s.mar

/-- `read_mbr()` (40 R161). -/
def State.peekMbr (s : State) : Word := s.mbr

/-- `read_status()`: the status word and FAULT_IDX (40 R161, 10 R37). -/
def State.peekStatus (s : State) : BitVec 32 × Word := (s.status, s.faultIdx)

/-! ### `step()` (40 R147, R148) -/

/-- What the host's `step()` returns (40 R147). -/
inductive StepResult where
  | ok
  | halted
  | fault (c : Cause)
  deriving DecidableEq, Repr

/-- The host's `step()`: at most one step, with its result and the state it leaves. Outside READY nothing
changes (40 R148). No step is refused, since `exec` has a meaning in every arm; the last line would
report such a refusal as no step. -/
def hostStep (s : State) : StepResult × State :=
  match step s with
  | .next t =>
    match t.fault with
    | some (c, _) => (.fault c, t)
    | none => (.ok, t)
  | .fault .halted => (.halted, s)
  | .fault (.latched c _) => (.fault c, s)
  | .refused _ => (.halted, s)

/-! ### `request_stop()` and `run(limit)` (40 R149 to R155) -/

/-- `request_stop()`: `STOP_REQ <- true` (40 R153, R158). -/
def requestStop (s : State) : State := { s with stopReq := true }

/-- The host posts a stop request, or does not (log entry 12). -/
def requestStopIf (b : Bool) (s : State) : State := if b then requestStop s else s

/-- What `run` returns beside the step count (40 R154). -/
inductive RunResult where
  | complete
  | incomplete
  | stopped
  | fault (c : Cause)
  deriving DecidableEq, Repr

/-- `limit > 0 and STEP_COUNT = limit`; a limit of 0, a negative one or none is no budget (40 R149,
R151). -/
def State.budgetSpent (s : State) : Bool :=
  match s.limit with
  | some l => decide (0 < l) && decide ((s.stepCount : Int) = l)
  | none => false

/-- The four tests before each step, in their order: fault, termination, budget, stop request (40 R149,
60 R235). -/
def runTest (s : State) : Option RunResult :=
  match s.fault with
  | some (c, _) => some (.fault c)
  | none =>
    if s.nInstr ≤ s.pc.toNat then some .complete
    else if s.budgetSpent then some .incomplete
    else if s.stopReq then some .stopped
    else none

/-- `STEP_COUNT <- 0`, `LIMIT` the call's argument (40 R149, 10 R38). -/
def State.beginRun (s : State) (limit : Option Int) : State :=
  { s with stepCount := 0, limit := limit }

/-- `STEP_COUNT <- STEP_COUNT + 1` (40 R149). -/
def State.countStep (s : State) : State := { s with stepCount := s.stepCount + 1 }

/-- `STOP_REQ <- false`, on every return of `run` (40 R149, R153). -/
def State.clearStop (s : State) : State := { s with stopReq := false }

/-- The loop of 40 R149. The list is the host's: its k-th entry says whether a stop request arrives before
the k-th round of tests. A list that ends before the run does gives `none`, as a run that is still going
returns nothing (log entry 12). -/
def runLoop : List Bool → State → Option (RunResult × State)
  | [], _ => none
  | req :: reqs, s =>
    let t := requestStopIf req s
    match runTest t with
    | some r => some (r, t.clearStop)
    | none => runLoop reqs (hostStep t).2.countStep

/-- `run(limit)` (40 R149): the result and the state it leaves. The returned step count is its
`stepCount`. -/
def run (limit : Option Int) (reqs : List Bool) (s : State) : Option (RunResult × State) :=
  runLoop reqs (s.beginRun limit)

/-! ### The debugger's continue (60 R242) -/

/-- Keep stepping while the last result is OK, STATE is READY, `x[0]` is no breakpoint and no stop request
is pending (60 R242; log entry 13). -/
def continueLoop (breaks : List Word) : List Bool → StepResult × State → Option (StepResult × State)
  | [], _ => none
  | req :: reqs, (r, s) =>
    let t := requestStopIf req s
    if r = .ok ∧ t.runState = .ready ∧ t.pc ∉ breaks ∧ t.stopReq = false then
      continueLoop breaks reqs (hostStep t)
    else some (r, t)

/-- Continue: call `step()` once, then the loop (60 R242). -/
def debugContinue (breaks : List Word) (reqs : List Bool) (s : State) : Option (StepResult × State) :=
  continueLoop breaks reqs (hostStep s)

end Sys2Proof.Machine
end

