-- ==== Sys2Proof/Machine/Assembler.lean ====
section
/-! DEFINITION. The assembler (30 R90 to R118): line classifier, instruction validator, label resolver, and
the load of its output into a machine. -/

namespace Sys2Proof.Machine

/-! ### Diagnostics (30 R112) -/

/-- Where a literal stands (30 R93). -/
inductive LiteralContext where
  | register
  | memory
  deriving DecidableEq, Repr

/-- The ten kinds with their details (30 R93, R103, R112). -/
inductive DiagKind where
  /-- 30 R95. -/
  | missingTerminator
  /-- 30 R95. -/
  | trailingContent
  /-- 30 R100. -/
  | invalidInitializerSyntax
  /-- 30 R93: the context and the offending text. -/
  | invalidLiteral (ctx : LiteralContext) (token : Text)
  /-- 30 R102. -/
  | unknownOperation (mnemonic : Text)
  /-- 30 R103: the expected and actual counts. -/
  | arityMismatch (expected actual : Nat)
  /-- 30 R105: the first bad token. -/
  | invalidRegister (token : Text)
  /-- 30 R106. -/
  | duplicateLabel (name : Text)
  /-- 30 R106. -/
  | invalidLabelName (name : Text)
  /-- 30 R109. -/
  | undefinedLabel (name : Text)
  deriving DecidableEq, Repr

/-- The codes of 30 R112. -/
def DiagKind.code : DiagKind → Nat
  | .missingTerminator => 1
  | .trailingContent => 2
  | .invalidInitializerSyntax => 3
  | .invalidLiteral _ _ => 4
  | .unknownOperation _ => 5
  | .arityMismatch _ _ => 6
  | .invalidRegister _ => 7
  | .duplicateLabel _ => 8
  | .invalidLabelName _ => 9
  | .undefinedLabel _ => 10

/-- A diagnostic: the line number from 1, the line as given, the kind (30 R112). -/
structure Diagnostic where
  line : Nat
  text : Text
  kind : DiagKind
  deriving DecidableEq, Repr

/-- Its message: the wording is any (30 R112, 93 U6; log entry 15). -/
def Diagnostic.message (d : Diagnostic) : Text :=
  Config.diagWording d.kind.code d.line d.text

/-! ### The assembly-time form (00 R12) -/

/-- The jump opcodes. -/
inductive JumpOp where
  | go
  | bin
  | biz
  deriving DecidableEq, Repr

/-- The resolved jump to target field `i`. -/
def JumpOp.resolved : JumpOp → Word → Instr
  | .go, i => .go i
  | .bin, i => .bin i
  | .biz, i => .biz i

/-- An appended instruction before the resolution pass: complete, or a jump that still carries its label,
with its source line (30 R108). -/
inductive AsmInstr where
  | done (i : Instr)
  | jump (op : JumpOp) (label : Text) (line : Nat) (text : Text)
  deriving DecidableEq, Repr

/-- What the first pass has gathered. Label values are integers, since -1 is one (30 R107). -/
structure AsmState where
  code : List AsmInstr
  regInits : List (Reg × Word)
  memInits : List (Word × Word)
  labels : List (Text × Int)
  deriving DecidableEq, Repr

/-- Nothing gathered. -/
def AsmState.empty : AsmState := { code := [], regInits := [], memInits := [], labels := [] }

/-! ### One line (30 R94 to R108, R113) -/

/-- A line's statement, classified (30 R96, R101). -/
inductive Statement where
  | initializer (lhs rhs : Text)
  | operation (mnemonic : Text) (args : List Text)
  deriving DecidableEq, Repr

/-- A mnemonic's class (30 R103). -/
inductive OpClass where
  | zero (i : Instr)
  | oneReg (mk : Reg → Instr)
  | twoReg (mk : Reg → Reg → Instr)
  | jump (op : JumpOp)
  | label

/-- Arguments each class expects (30 R103). -/
def OpClass.arity : OpClass → Nat
  | .zero _ => 0
  | .oneReg _ => 1
  | .twoReg _ => 2
  | .jump _ => 1
  | .label => 1

/-- The mnemonics and their classes (30 R102, R103); each has exactly one (30 R104). -/
def mnemonicTable : List (Text × OpClass) :=
  [ (['S', 'A'], .oneReg .sa), (['R', 'B'], .oneReg .rb), (['R', 'D'], .zero .rd), (['W', 'R'], .zero .wr),
    (['S', 'B'], .oneReg .sb), (['S', 'F'], .oneReg .sf), (['G', 'O'], .jump .go),
    (['B', 'I', 'N'], .jump .bin), (['B', 'I', 'Z'], .jump .biz) ] ++
  [ (['A', 'D', 'D'], .twoReg .add), (['A', 'N', 'D'], .twoReg .and), (['M', 'V'], .twoReg .mv),
    (['N', 'O', 'T'], .twoReg .not), (['R', 'S'], .twoReg .rs), (['L', 'S'], .twoReg .ls),
    (['S', 'W'], .twoReg .sw), (['L', 'B', 'L'], .label) ]

/-- The class of a mnemonic, compared without regard to case (30 R102). -/
def lookupMnemonic (m : Text) : Option OpClass := mnemonicTable.lookup (m.map upperChar)

/-- Step 1: the text before the first `#`, trimmed (30 R94). -/
def stripComment (t : Text) : Text := trim (splitFirst '#' t).1

/-- Step 2: the statement before the terminator (30 R95). -/
def takeStatement (t : Text) : Except DiagKind Text :=
  match splitFirst ';' t with
  | (_, none) => .error .missingTerminator
  | (stmt, some after) => if after.all isWs then .ok (trim stmt) else .error .trailingContent

/-- The argument list: none if the text is empty, else the trimmed pieces between commas, empty pieces
kept (30 R101). -/
def splitArgs (t : Text) : List Text :=
  match t with
  | [] => []
  | c :: u => (splitAll ',' (c :: u)).map trim

/-- Steps 3 and 4: an initializer if the statement holds a `:`, else an operation (30 R96, R101). -/
def classify (stmt : Text) : Statement :=
  match splitFirst ':' stmt with
  | (lhs, some rhs) => .initializer (trim lhs) (trim rhs)
  | (_, none) =>
    .operation (stmt.takeWhile (fun c => !isWs c)) (splitArgs (trim (stmt.dropWhile (fun c => !isWs c))))

/-- A literal in its context (30 R93). -/
def literalIn (ctx : LiteralContext) (t : Text) : Except DiagKind Word :=
  match parseLiteral t with
  | some v => .ok v
  | none => .error (.invalidLiteral ctx t)

/-- The text between the brackets of `[addr]`, if the left-hand side has that shape (30 R97, R99). -/
def bracketed (t : Text) : Option Text :=
  match t with
  | '[' :: u => if u.getLast? = some ']' then some (trim u.dropLast) else none
  | _ => none

/-- An initializer: a register's, a memory word's, or neither shape (30 R97 to R100). -/
def processInitializer (lhs rhs : Text) (st : AsmState) : Except DiagKind AsmState :=
  match parseReg lhs with
  | some r =>
    match literalIn .register rhs with
    | .error d => .error d
    | .ok v => .ok { st with regInits := st.regInits ++ [(r, v)] }
  | none =>
    match bracketed lhs with
    | none => .error .invalidInitializerSyntax
    | some addr =>
      match literalIn .memory addr with
      | .error d => .error d
      | .ok a =>
        match literalIn .memory rhs with
        | .error d => .error d
        | .ok v => .ok { st with memInits := st.memInits ++ [(a, v)] }

/-- An instruction is appended. -/
def AsmState.append (st : AsmState) (i : AsmInstr) : AsmState := { st with code := st.code ++ [i] }

/-- A register token (30 R105). -/
def registerToken (t : Text) : Except DiagKind Reg :=
  match parseReg t with
  | some r => .ok r
  | none => .error (.invalidRegister t)

/-- `len(instructions) - 1`, the value a label binds where it stands (30 R107). -/
def AsmState.labelValue (st : AsmState) : Int := (st.code.length : Int) - 1

/-- LBL: the name check, the redefinition check, the binding (30 R106, R107, R113). -/
def bindLabel (name : Text) (st : AsmState) : Except DiagKind AsmState :=
  if isIdentifier name then
    match st.labels.lookup name with
    | some _ => .error (.duplicateLabel name)
    | none => .ok { st with labels := st.labels ++ [(name, st.labelValue)] }
  else .error (.invalidLabelName name)

/-- An operation: mnemonic, then argument count, then the arguments of its class (30 R102 to R108, R113).
`line` and `text` are the source line, recorded with a jump (30 R108). -/
def processOperation (line : Nat) (text : Text) (m : Text) (args : List Text) (st : AsmState) :
    Except DiagKind AsmState :=
  match lookupMnemonic m with
  | none => .error (.unknownOperation m)
  | some cls =>
    match cls, args with
    | .zero i, [] => .ok (st.append (.done i))
    | .oneReg mk, [a] =>
      match registerToken a with
      | .error d => .error d
      | .ok x => .ok (st.append (.done (mk x)))
    | .twoReg mk, [a, b] =>
      match registerToken a with
      | .error d => .error d
      | .ok x =>
        match registerToken b with
        | .error d => .error d
        | .ok y => .ok (st.append (.done (mk x y)))
    | .jump op, [l] => .ok (st.append (.jump op l line text))
    | .label, [name] => bindLabel name st
    | c, as => .error (.arityMismatch c.arity as.length)

/-- One source line, with the checks in the order of 30 R113. -/
def processLine (line : Nat) (text : Text) (st : AsmState) : Except DiagKind AsmState :=
  match stripComment text with
  | [] => .ok st
  | c :: t =>
    match takeStatement (c :: t) with
    | .error d => .error d
    | .ok stmt =>
      match classify stmt with
      | .initializer lhs rhs => processInitializer lhs rhs st
      | .operation m args => processOperation line text m args st

/-! ### The two passes (30 R109 to R111) -/

/-- The first pass from line number `line` on: the first diagnostic ends it (30 R111). -/
def firstPass : Nat → List Text → AsmState → Except Diagnostic AsmState
  | _, [], st => .ok st
  | line, text :: rest, st =>
    match processLine line text st with
    | .error k => .error { line := line, text := text, kind := k }
    | .ok st' => firstPass (line + 1) rest st'

/-- A placeholder's label replaced by its value, `I mod 2^32` (30 R109, R116). -/
def resolveOne (labels : List (Text × Int)) : AsmInstr → Except Diagnostic Instr
  | .done i => .ok i
  | .jump op l line text =>
    match labels.lookup l with
    | some v => .ok (op.resolved (BitVec.ofInt 32 v))
    | none => .error { line := line, text := text, kind := .undefinedLabel l }

/-- The resolution pass, in instruction order (30 R109). -/
def resolveAll (labels : List (Text × Int)) : List AsmInstr → Except Diagnostic (List Instr)
  | [] => .ok []
  | a :: rest =>
    match resolveOne labels a with
    | .error d => .error d
    | .ok i =>
      match resolveAll labels rest with
      | .error d => .error d
      | .ok is => .ok (i :: is)

/-- The assembler's output (30 R90): the resolved sequence and the initializer lists, in input order. -/
structure Assembled where
  instrs : List Instr
  regInits : List (Reg × Word)
  memInits : List (Word × Word)
  deriving DecidableEq, Repr

/-- The assembler: success with three lists, or one diagnostic (30 R90, R111). -/
def assemble (lines : List Text) : Except Diagnostic Assembled :=
  match firstPass 1 lines AsmState.empty with
  | .error d => .error d
  | .ok st =>
    match resolveAll st.labels st.code with
    | .error d => .error d
    | .ok is => .ok { instrs := is, regInits := st.regInits, memInits := st.memInits }

/-- The host loads what the assembler made (30 R116, 70 R264). -/
def load (cfg : Config) (a : Assembled) : Result :=
  construct cfg a.regInits a.memInits (storeImage a.instrs)

end Sys2Proof.Machine
end

