-- ==== Sys2Proof/Safety.lean ====
section
/-! DEFINITION. The terms the claims use, written from the spec's own words and apart from the meanings: what
an instruction leaves unchanged, the PC update, the words of the opcode map as numbers, and the invariant of
the machine. -/

namespace Sys2Proof.Machine

/-! ### What stays unchanged ("a register, latch, flag or memory word that a rule does not write keeps its
value", 00 R11) -/

/-- N and Z are as before. -/
def SameFlags (s t : State) : Prop := t.n = s.n ∧ t.z = s.z

/-- MAR and MBR are as before. -/
def SameLatches (s t : State) : Prop := t.mar = s.mar ∧ t.mbr = s.mbr

/-- Every word of the data memory reads as before. -/
def SameMemory (s t : State) : Prop := ∀ a : Word, t.readMem a = s.readMem a

/-- Every word of the data memory but the one at `addr` reads as before. -/
def SameMemoryBut (addr : Word) (s t : State) : Prop := ∀ a : Word, a ≠ addr → t.readMem a = s.readMem a

/-- Every register but the PC is as before. -/
def SameRegs (s t : State) : Prop := ∀ r : Reg, r ≠ 0 → t.readReg r = s.readReg r

/-- The instruction store, the configuration and the run controller's values are as before: no instruction
reaches them (10 R38, R40, R42). -/
def SameFixed (s t : State) : Prop :=
  t.imem = s.imem ∧ t.cfg = s.cfg ∧ t.stepCount = s.stepCount ∧ t.limit = s.limit ∧ t.stopReq = s.stopReq

/-- The machine's own state and its configuration agree: all but the run controller's values (10 R42). -/
def SameMachine (s t : State) : Prop :=
  t.x = s.x ∧ t.mar = s.mar ∧ t.mbr = s.mbr ∧ t.n = s.n ∧ t.z = s.z ∧ t.mem = s.mem ∧ t.fault = s.fault ∧
    t.imem = s.imem ∧ t.cfg = s.cfg

/-! ### The PC update -/

/-- After an instruction of state `s` that is no taken jump and whose effect left `p` in register 0
(40 R145). -/
def PcAdvances (s t : State) (p : Word) : Prop :=
  (p ≠ 0xFFFFFFFF#32 → t.pc.toNat = p.toNat + 1 ∧ t.fault = s.fault) ∧
  (p = 0xFFFFFFFF#32 →
    match s.cfg.pcOverflowMode with
    | .fault => t.pc = 0xFFFFFFFF#32 ∧ t.fault = some (.pcOverflow, s.pc)
    | .wrap => t.pc = 0x00000000#32 ∧ t.fault = s.fault
    | .saturate => t.pc = 0xFFFFFFFF#32 ∧ t.fault = s.fault)

/-- After a taken jump with target field `i` (40 R144). -/
def PcJumps (s t : State) (i : Word) : Prop := t.pc.toNat = (i.toNat + 1) % 2 ^ 32 ∧ t.fault = s.fault

/-! ### Instructions that write a register -/

/-- The value register `x` holds after an instruction wrote `v` to it (10 R24). -/
def stored (s : State) (x : Reg) (v : Word) : Word :=
  if s.cfg.constRegsHardwired = true ∧ (x = 5 ∨ x = 6 ∨ x = 7) then s.readReg x else v

/-- The instruction completes, register `x` takes `v`, the PC update follows, and nothing else changes. With
`x = 0` the value written is the PC that the update starts from (10 R22). -/
def WritesRegister (i : Instr) (x : Reg) (v : Word) (s : State) : Prop :=
  ∃ t, exec i s = .next t ∧ (x ≠ 0 → t.readReg x = stored s x v) ∧
    (∀ r, r ≠ 0 → r ≠ x → t.readReg r = s.readReg r) ∧ PcAdvances s t (if x = 0 then v else s.pc) ∧
    SameFlags s t ∧ SameLatches s t ∧ SameMemory s t ∧ SameFixed s t

/-- The jump completes, taken or not, and changes nothing but the PC. -/
def Jumps (i : Instr) (taken : Prop) (target : Word) (s : State) : Prop :=
  ∃ t, exec i s = .next t ∧ (taken → PcJumps s t target) ∧ (¬ taken → PcAdvances s t s.pc) ∧
    SameRegs s t ∧ SameFlags s t ∧ SameLatches s t ∧ SameMemory s t ∧ SameFixed s t

/-- The register an instruction's effect writes through its operand X (10 R25, column "writes"), and the
value its own rule gives (41 R172, 43 R210 to R220). -/
def registerWrite (i : Instr) (s : State) : Option (Reg × Word) :=
  match i with
  | .rb x => some (x, s.mbr)
  | .add x y => some (x, BitVec.ofNat 32 ((s.readReg x).toNat + (s.readReg y).toNat))
  | .and x y => some (x, s.readReg x &&& s.readReg y)
  | .mv x y => some (x, s.readReg y)
  | .not x y => some (x, BitVec.ofNat 32 (2 ^ 32 - 1 - (s.readReg y).toNat))
  | .rs x y => some (x, BitVec.ofNat 32 ((s.readReg y).toNat / 2))
  | .ls x y => some (x, BitVec.ofNat 32 ((s.readReg y).toNat * 2))
  | .sa _ | .rd | .wr | .sb _ | .sf _ | .sw _ _ => none
  | .go _ | .bin _ | .biz _ => none

/-- Whether an instruction is a taken jump: "GO, BIN with `N = true`, or BIZ with `Z = true`" (40 R144). -/
def IsTaken (i : Instr) (s : State) : Prop :=
  match i with
  | .go _ => True
  | .bin _ => s.n = true
  | .biz _ => s.z = true
  | .sa _ | .rb _ | .rd | .wr | .sb _ | .sf _ => False
  | .add _ _ | .and _ _ | .mv _ _ | .not _ _ | .rs _ _ | .ls _ _ | .sw _ _ => False

/-- `p` of 40 R145: register 0 after the effect of an instruction that is no taken jump, "the instruction's own
index, unless the instruction wrote register 0". -/
def pcAfterEffect (i : Instr) (s : State) : Word :=
  match registerWrite i s with
  | some (x, v) => if x = 0 then v else s.pc
  | none => s.pc

/-- The instructions that "can raise `PC_OVERFLOW`": RB 0, ADD 0,Y, MV 0,Y and NOT 0,Y (60 R232). -/
def mayOverflowPc : Instr → Bool
  | .rb x => x == 0
  | .add x _ | .mv x _ | .not x _ => x == 0
  | .and _ _ | .rs _ _ | .ls _ _ => false
  | .sa _ | .rd | .wr | .sb _ | .sf _ | .sw _ _ => false
  | .go _ | .bin _ | .biz _ => false

/-- The instructions that change or use a latch (41 R171). -/
def touchesLatches : Instr → Bool
  | .sa _ | .rb _ | .rd | .wr | .sb _ | .sw _ _ => true
  | .sf _ | .go _ | .bin _ | .biz _ => false
  | .add _ _ | .and _ _ | .mv _ _ | .not _ _ | .rs _ _ | .ls _ _ => false

/-- The address an instruction stores to, if it stores: MAR for WR, `x[X]` for SW (41 R176, R180). -/
def storeAddress (i : Instr) (s : State) : Option Word :=
  match i with
  | .wr => some s.mar
  | .sw x _ => some (s.readReg x)
  | .sa _ | .rb _ | .rd | .sb _ | .sf _ | .go _ | .bin _ | .biz _ => none
  | .add _ _ | .and _ _ | .mv _ _ | .not _ _ | .rs _ _ | .ls _ _ => none

/-! ### Words as numbers (30 R72, R73) -/

/-- Format N word: `op` in bits 39:36, zeros below. -/
def wordN (op : Nat) : IWord := BitVec.ofNat 40 (op * 2 ^ 36)

/-- Format R1 word: X in bits 35:32. -/
def wordR1 (op : Nat) (x : Reg) : IWord := BitVec.ofNat 40 (op * 2 ^ 36 + x.val * 2 ^ 32)

/-- Format R2 word: X in bits 35:32, Y in bits 3:0. -/
def wordR2 (op : Nat) (x y : Reg) : IWord := BitVec.ofNat 40 (op * 2 ^ 36 + x.val * 2 ^ 32 + y.val)

/-- Format J word: I in bits 31:0. -/
def wordJ (op : Nat) (i : Word) : IWord := BitVec.ofNat 40 (op * 2 ^ 36 + i.toNat)

/-- An instruction's `OP` (30 R73). -/
def opNumber : Instr → Nat
  | .sa _ => 0x0
  | .rb _ => 0x1
  | .rd => 0x2
  | .wr => 0x3
  | .sb _ => 0x4
  | .sf _ => 0x5
  | .go _ => 0x6
  | .bin _ => 0x7
  | .biz _ => 0x8
  | .add _ _ => 0x9
  | .and _ _ => 0xA
  | .mv _ _ => 0xB
  | .not _ _ => 0xC
  | .rs _ _ => 0xD
  | .ls _ _ => 0xE
  | .sw _ _ => 0xF

/-- Columns mask and match of the opcode map, one row an `OP` in order (30 R73). -/
def opcodeRows : List (IWord × IWord) :=
  [ (0xF0FFFFFFFF#40, 0x0000000000#40), (0xF0FFFFFFFF#40, 0x1000000000#40),
    (0xFFFFFFFFFF#40, 0x2000000000#40), (0xFFFFFFFFFF#40, 0x3000000000#40),
    (0xF0FFFFFFFF#40, 0x4000000000#40), (0xF0FFFFFFFF#40, 0x5000000000#40),
    (0xFF00000000#40, 0x6000000000#40), (0xFF00000000#40, 0x7000000000#40) ] ++
  [ (0xFF00000000#40, 0x8000000000#40), (0xF0FFFFFFF0#40, 0x9000000000#40),
    (0xF0FFFFFFF0#40, 0xA000000000#40), (0xF0FFFFFFF0#40, 0xB000000000#40),
    (0xF0FFFFFFF0#40, 0xC000000000#40), (0xF0FFFFFFF0#40, 0xD000000000#40),
    (0xF0FFFFFFF0#40, 0xE000000000#40), (0xF0FFFFFFF0#40, 0xF000000000#40) ]

/-- Word `w` fits row `k`: `w & mask = match` (30 R73). -/
def fitsRow (k : Nat) (w : IWord) : Prop := ∃ p, opcodeRows[k]? = some p ∧ w &&& p.1 = p.2

/-- The operands of an instruction are those of the word: `X = w[35:32]`, `Y = w[3:0]`, `I = w[31:0]`, as its
format takes them (30 R74, 40 R140). -/
def operandsFrom (w : IWord) : Instr → Prop
  | .sa x | .rb x | .sb x | .sf x => x.val = w.toNat / 2 ^ 32 % 16
  | .rd | .wr => True
  | .go i | .bin i | .biz i => i.toNat = w.toNat % 2 ^ 32
  | .add x y | .and x y | .mv x y | .not x y | .rs x y | .ls x y | .sw x y =>
    x.val = w.toNat / 2 ^ 32 % 16 ∧ y.val = w.toNat % 16

/-! ### Initializers (10 R27, 20 R60) -/

/-- The value of the last initializer for `k`, else 0: "last write wins ... in input order". -/
def lastInit {κ : Type} [DecidableEq κ] (inits : List (κ × Word)) (k : κ) : Word :=
  match inits.reverse.find? (fun p => decide (p.1 = k)) with
  | some p => p.2
  | none => 0x00000000#32

/-! ### Many steps -/

/-- `k` single steps of the machine, one after the other, ending at the first that gives no state. -/
def stepTimes : Nat → State → Result
  | 0, s => .next s
  | k + 1, s =>
    match step s with
    | .next t => stepTimes k t
    | .fault r => .fault r
    | .refused r => .refused r

/-- The instructions of a list carried out one after the other, ending at the first that gives no state. -/
def execAll : List Instr → State → Result
  | [], s => .next s
  | i :: is, s =>
    match exec i s with
    | .next t => execAll is t
    | .fault r => .fault r
    | .refused r => .refused r

/-- `k + 1` calls of the host's `step()`: the last result, and the state they leave (40 R147). -/
def hostSteps : Nat → State → StepResult × State
  | 0, s => hostStep s
  | k + 1, s => hostSteps k (hostStep s).2

/-- A stop request is pending at the host's `k`-th test, counted from 1: it was before the first, or one of the
first `k` arrivals is one (40 R153; log entry 12). -/
def stopPendingAt (s : State) (reqs : List Bool) (k : Nat) : Prop := s.stopReq = true ∨ true ∈ reqs.take k

/-- Continue goes on after `k + 1` calls of `step()`: "while the last result is OK, `STATUS.STATE` is READY, `x[0]`
is not in B and no stop request is pending" (60 R242). -/
def continueGoesOn (breaks : List Word) (reqs : List Bool) (s : State) (k : Nat) : Prop :=
  (hostSteps k s).1 = .ok ∧ (hostSteps k s).2.runState = .ready ∧ (hostSteps k s).2.readReg 0 ∉ breaks ∧
    ¬ stopPendingAt s reqs (k + 1)

/-! ### The invariant -/

/-- With `CONST_REGS_HARDWIRED = true`, registers 5, 6 and 7 hold their constants (10 R23, R24). -/
def State.constRegsHeld (s : State) : Prop :=
  s.cfg.constRegsHardwired = true →
    s.readReg 5 = 0x00000000#32 ∧ s.readReg 6 = 0x00000001#32 ∧ s.readReg 7 = 0xFFFFFFFF#32

/-- "N and Z are never both true" (42 R190). -/
def State.flagsExclusive (s : State) : Prop := ¬ (s.n = true ∧ s.z = true)

/-- A latched fault is one the spec describes (60 R232): an illegal word stands at `x[0]`, which FAULT_IDX
names; or the mode is `fault`, `x[0]` is `0xFFFFFFFF`, and FAULT_IDX names a legal word of the store, of an
instruction that may overflow the PC. -/
def State.faultJustified (s : State) : Prop :=
  match s.fault with
  | none => True
  | some (.illegalInstruction, k) =>
    k = s.pc ∧ ∃ w, s.imem[k.toNat]? = some w ∧ legal w = false
  | some (.pcOverflow, k) =>
    s.cfg.pcOverflowMode = .fault ∧ s.pc = 0xFFFFFFFF#32 ∧
      ∃ w i, s.imem[k.toNat]? = some w ∧ decode w = .instr i ∧ mayOverflowPc i = true

/-- The invariant of the machine: canonical memory, a store no longer than a program may be (30 R115), and
the three above. -/
structure State.Inv (s : State) : Prop where
  memCanonical : Memory.wf s.mem = true
  storeFits : programFits s.imem.length = true
  constRegs : s.constRegsHeld
  flags : s.flagsExclusive
  faults : s.faultJustified

end Sys2Proof.Machine
end

