-- ==== Sys2Proof/Certificates/Slice0/Obligations.lean ====
section
/-! DEFINITION. The statements for the provers. Each docstring names the rule it formalises; a clause that is
the spec's own inference or the model's choice is named as such. -/

open Sys2Proof Sys2Proof.Machine

/-! ### Encoding (30) -/

/-- Four words the spec writes out decode to their instructions (the examples of 30 R78). -/
def Obligations.ExampleWordsDecode : Prop :=
  decode 0x9100000002#40 = .instr (.add 1 2) ∧ decode 0xFA00000003#40 = .instr (.sw 10 3) ∧
    decode 0x60FFFFFFFF#40 = .instr (.go 0xFFFFFFFF#32) ∧ decode 0x8000000004#40 = .instr (.biz 4#32)

/-- "Decode and encode are inverse on legal words" (30 R79, which the spec derives from R73, R75, R78). -/
def Obligations.DecodeEncodeInverse : Prop :=
  (∀ i, legal (encode i) = true ∧ decode (encode i) = .instr i) ∧
    ∀ w, legal w = true → ∃ i, decode w = .instr i ∧ encode i = w

/-- "A word `w` is the listed instruction exactly when `w & mask = match`. No two rows match the same word."
(30 R73) -/
def Obligations.OpcodeMapRows : Prop :=
  (∀ w k, fitsRow k w ↔ ∃ i, decode w = .instr i ∧ opNumber i = k) ∧
    ∀ w j k, fitsRow j w → fitsRow k w → j = k

/-- `legal(w)` is the formula of 30 R75, and a word is legal exactly when it fits a row of 30 R73. -/
def Obligations.LegalWords : Prop :=
  (∀ w, legal w = true ↔
    let n := w.toNat
    let op := n / 2 ^ 36
    ((op = 2 ∨ op = 3) → n % 2 ^ 36 = 0) ∧
    ((op = 0 ∨ op = 1 ∨ op = 4 ∨ op = 5) → n % 2 ^ 32 = 0) ∧
    ((op = 6 ∨ op = 7 ∨ op = 8) → n / 2 ^ 32 % 16 = 0) ∧
    (9 ≤ op → n / 16 % 2 ^ 28 = 0)) ∧
  ∀ w, legal w = true ↔ ∃ k, fitsRow k w

/-- The decoder is total: `Illegal` exactly on illegal words, else the one instruction of the row that fits
the word, with the word's own operands (40 R140). -/
def Obligations.DecoderTotal : Prop :=
  ∀ w, (legal w = false → ∃ f, decode w = .illegal f) ∧
    (legal w = true → ∃ i, decode w = .instr i ∧ fitsRow (opNumber i) w ∧ operandsFrom w i)

/-! ### The step (40, 60) -/

/-- In READY, a step on a word that decodes to `i` is `exec i`, with nothing added (40 R141 to R143, R156). -/
def Obligations.StepRunsDecoded : Prop :=
  ∀ (s : State) (w : IWord) (i : Instr), s.fault = none → s.imem[(s.readReg 0).toNat]? = some w →
    decode w = .instr i → step s = exec i s

/-- "When the sequencer fetches an illegal word, it raises `Fault(ILLEGAL_INSTRUCTION)` before any effect and
changes no state" (30 R76): only the latch changes, and the host sees the fault. "The assembler never emits an
illegal word": no store image of resolved instructions holds one. -/
def Obligations.IllegalWordFaults : Prop :=
  (∀ (p : List Instr) (w : IWord), w ∈ storeImage p → legal w = true) ∧
  ∀ (s : State) (w : IWord), s.fault = none → s.imem[(s.readReg 0).toNat]? = some w → legal w = false →
    let t := { s with fault := some (.illegalInstruction, s.readReg 0) }
    step s = .next t ∧ hostStep s = (.fault .illegalInstruction, t)

/-- "If a fault is latched, `step()` changes nothing and returns `FAULT(cause)`. If `x[0] >= N_INSTR`, `step()`
changes nothing and returns `HALTED`." (40 R148); it does not fetch: the machine's step answers no state. -/
def Obligations.StepOutsideReady : Prop :=
  ∀ s : State,
    (∀ c k, s.fault = some (c, k) → step s = .fault (.latched c k) ∧ hostStep s = (.fault c, s)) ∧
    (s.fault = none → s.imem.length ≤ (s.readReg 0).toNat →
      step s = .fault .halted ∧ hostStep s = (.halted, s))

/-- In READY the host's step performs exactly one step and returns `OK`, or `FAULT(cause)` if the step raised
one (40 R147). -/
def Obligations.ReadyStepReturns : Prop :=
  ∀ s : State, s.runState = .ready → ∃ t, step s = .next t ∧
    (t.fault = none → hostStep s = (.ok, t)) ∧
    (∀ c k, t.fault = some (c, k) → hostStep s = (.fault c, t))

/-- "Once latched, a fault stays, and `step()` and `run()` return `FAULT(cause)` with no change. Only
`construct`, which builds a new instance, clears it" (60 R233): neither a stop request nor a continue does. -/
def Obligations.FaultsSticky : Prop :=
  (∀ (s : State) (c : Cause) (k : Word), s.fault = some (c, k) →
    hostStep s = (.fault c, s) ∧
    (∀ limit req reqs, ∃ t, run limit (req :: reqs) s = some (.fault c, t) ∧ t.stepCount = 0 ∧ SameMachine s t) ∧
    (requestStop s).fault = some (c, k) ∧
    ∀ breaks reqs r t, debugContinue breaks reqs s = some (r, t) → r = .fault c ∧ SameMachine s t) ∧
  ∀ cfg regInits memInits image t, construct cfg regInits memInits image = .next t → t.fault = none

/-- The update after a taken jump: `x[0]` is `(I + 1) mod 2^32`, whatever I is, with no fault (40 R144). -/
def Obligations.TakenJumpLands : Prop :=
  ∀ (i : Instr) (s : State) (target : Word), i = .go target ∨ i = .bin target ∨ i = .biz target →
    IsTaken i s → ∃ t, exec i s = .next t ∧ t.pc.toNat = (target.toNat + 1) % 2 ^ 32 ∧ t.fault = s.fault

/-- The update after any other instruction, in the three modes (40 R145). "`p = 0xFFFFFFFF` arises only from an
instruction that writes register 0 with `0xFFFFFFFF`", in a store that holds a program (30 R115). -/
def Obligations.PcUpdateAfterOthers : Prop :=
  ∀ (i : Instr) (s : State), ¬ IsTaken i s →
    ∃ t, exec i s = .next t ∧ PcAdvances s t (pcAfterEffect i s) ∧
      (∀ x v, registerWrite i s = some (x, v) → x ≠ 0 → t.readReg x = stored s x v) ∧
      (∀ w, programFits s.imem.length = true → s.fetch = some w → pcAfterEffect i s = 0xFFFFFFFF#32 →
        registerWrite i s = some (0, 0xFFFFFFFF#32))

/-- What a step's fault records (60 R232, columns "when", "state change" and "recorded"): FAULT_IDX is `x[0]` at
the fetch; the illegal word changes nothing else; the overflow leaves `x[0]` at `0xFFFFFFFF`. -/
def Obligations.FaultRecords : Prop :=
  ∀ (s t : State) (c : Cause) (k : Word), step s = .next t → t.fault = some (c, k) →
    k = s.readReg 0 ∧
    (c = .illegalInstruction → (∃ w, s.fetch = some w ∧ legal w = false) ∧ t = { s with fault := t.fault }) ∧
    (c = .pcOverflow → s.cfg.pcOverflowMode = .fault ∧ t.readReg 0 = 0xFFFFFFFF#32 ∧
      ∃ w i, s.fetch = some w ∧ decode w = .instr i ∧ ¬ IsTaken i s ∧ pcAfterEffect i s = 0xFFFFFFFF#32)

/-- "The instructions that can raise `PC_OVERFLOW` are RB 0, ADD 0,Y, MV 0,Y and NOT 0,Y" (60 R232, which the
spec derives from 43 R212, R218, R220), in a store that holds a program (30 R115). -/
def Obligations.OnlyFourOverflowPc : Prop :=
  ∀ (s t : State) (w : IWord) (i : Instr) (k : Word), programFits s.imem.length = true →
    s.fetch = some w → decode w = .instr i → step s = .next t → t.fault = some (.pcOverflow, k) →
    mayOverflowPc i = true

/-! ### Memory transfer (41) -/

/-- SA X: `MAR <- x[X]` (41 R170). -/
def Obligations.SaLoadsMar : Prop :=
  ∀ (x : Reg) (s : State), decode (wordR1 0x0 x) = .instr (.sa x) ∧
    ∃ t, exec (.sa x) s = .next t ∧ t.mar = s.readReg x ∧ t.mbr = s.mbr ∧ PcAdvances s t s.pc ∧
      SameRegs s t ∧ SameFlags s t ∧ SameMemory s t ∧ SameFixed s t

/-- RB X: `x[X] <- MBR`, a computed jump when X is 0, discarded on a hardwired register (41 R172). -/
def Obligations.RbReadsMbr : Prop :=
  ∀ (x : Reg) (s : State), decode (wordR1 0x1 x) = .instr (.rb x) ∧ WritesRegister (.rb x) x s.mbr s

/-- RD: `MBR <- MemRead(MAR, 1)`, 0 where no word stands at MAR (41 R174). -/
def Obligations.RdReadsMemory : Prop :=
  decode (wordN 0x2) = .instr .rd ∧
  ∀ s : State, ∃ t, exec .rd s = .next t ∧ t.mbr = s.readMem s.mar ∧
    ((∀ p ∈ s.mem, p.1 ≠ s.mar.toNat) → t.mbr = 0x00000000#32) ∧ t.mar = s.mar ∧ PcAdvances s t s.pc ∧
    SameRegs s t ∧ SameFlags s t ∧ SameMemory s t ∧ SameFixed s t

/-- WR: `MemWrite(MAR, 1, MBR)` (41 R176). The memory is in its canonical form (log entry 1) where the word is read
back. -/
def Obligations.WrStoresMbr : Prop :=
  decode (wordN 0x3) = .instr .wr ∧
  ∀ s : State, ∃ t, exec .wr s = .next t ∧ (Memory.wf s.mem = true → t.readMem s.mar = s.mbr) ∧
    SameMemoryBut s.mar s t ∧ SameLatches s t ∧ PcAdvances s t s.pc ∧ SameRegs s t ∧ SameFlags s t ∧
    SameFixed s t

/-- SB X: `MBR <- x[X]` (41 R178). -/
def Obligations.SbLoadsMbr : Prop :=
  ∀ (x : Reg) (s : State), decode (wordR1 0x4 x) = .instr (.sb x) ∧
    ∃ t, exec (.sb x) s = .next t ∧ t.mbr = s.readReg x ∧ t.mar = s.mar ∧ PcAdvances s t s.pc ∧
      SameRegs s t ∧ SameFlags s t ∧ SameMemory s t ∧ SameFixed s t

/-- SW X,Y: `MAR <- x[X]`, `MBR <- x[Y]`, `MemWrite(MAR, 1, MBR)` (41 R180). The memory is in its canonical form
(log entry 1) where the word is read back. -/
def Obligations.SwStoresRegister : Prop :=
  ∀ (x y : Reg) (s : State), decode (wordR2 0xF x y) = .instr (.sw x y) ∧
    ∃ t, exec (.sw x y) s = .next t ∧ t.mar = s.readReg x ∧ t.mbr = s.readReg y ∧
      (Memory.wf s.mem = true → t.readMem (s.readReg x) = s.readReg y) ∧ SameMemoryBut (s.readReg x) s t ∧
      PcAdvances s t s.pc ∧ SameRegs s t ∧ SameFlags s t ∧ SameFixed s t

/-! ### Flags and jumps (42) -/

/-- SF X: `Z <- (x[X] = 0)`, `N <- (x[X][31] = 1)`, both always (42 R190). That they are never both
true the spec derives from this pseudocode: the clause `flagsExclusive` is that inference of its own. -/
def Obligations.SfSetsFlags : Prop :=
  ∀ (x : Reg) (s : State), decode (wordR1 0x5 x) = .instr (.sf x) ∧
    ∃ t, exec (.sf x) s = .next t ∧ (t.z = true ↔ s.readReg x = 0x00000000#32) ∧
      (t.n = true ↔ 2 ^ 31 ≤ (s.readReg x).toNat) ∧ t.flagsExclusive ∧ PcAdvances s t s.pc ∧
      SameRegs s t ∧ SameLatches s t ∧ SameMemory s t ∧ SameFixed s t

/-- GO I: always taken (42 R194). -/
def Obligations.GoJumps : Prop :=
  ∀ (i : Word) (s : State), decode (wordJ 0x6 i) = .instr (.go i) ∧ Jumps (.go i) True i s

/-- BIN I: taken if N, else the plain increment; Z is ignored (42 R196). -/
def Obligations.BinJumpsIfNegative : Prop :=
  ∀ (i : Word) (s : State), decode (wordJ 0x7 i) = .instr (.bin i) ∧ Jumps (.bin i) (s.n = true) i s

/-- BIZ I: taken if Z, else the plain increment; N is ignored (42 R198). -/
def Obligations.BizJumpsIfZero : Prop :=
  ∀ (i : Word) (s : State), decode (wordJ 0x8 i) = .instr (.biz i) ∧ Jumps (.biz i) (s.z = true) i s

/-! ### ALU (43) -/

/-- ADD X,Y: `x[X] <- (x[X] + x[Y]) mod 2^32` (43 R210). -/
def Obligations.AddWraps : Prop :=
  ∀ (x y : Reg) (s : State), decode (wordR2 0x9 x y) = .instr (.add x y) ∧
    WritesRegister (.add x y) x (BitVec.ofNat 32 (((s.readReg x).toNat + (s.readReg y).toNat) % 2 ^ 32)) s

/-- AND X,Y: bit k of `x[X]` is the conjunction of bits k of `x[X]` and `x[Y]` (43 R212). -/
def Obligations.AndIsBitwise : Prop :=
  ∀ (x y : Reg) (s : State), decode (wordR2 0xA x y) = .instr (.and x y) ∧
    ∃ v : Word, (∀ k, v.getLsbD k = ((s.readReg x).getLsbD k && (s.readReg y).getLsbD k)) ∧
      WritesRegister (.and x y) x v s

/-- MV X,Y: `x[X] <- x[Y]` (43 R214). -/
def Obligations.MvCopies : Prop :=
  ∀ (x y : Reg) (s : State), decode (wordR2 0xB x y) = .instr (.mv x y) ∧
    WritesRegister (.mv x y) x (s.readReg y) s

/-- NOT X,Y: `x[X] <- 0xFFFFFFFF - x[Y]` (43 R216). -/
def Obligations.NotComplements : Prop :=
  ∀ (x y : Reg) (s : State), decode (wordR2 0xC x y) = .instr (.not x y) ∧
    WritesRegister (.not x y) x (BitVec.ofNat 32 (0xFFFFFFFF - (s.readReg y).toNat)) s

/-- RS X,Y: `x[X] <- floor(x[Y] / 2)` (43 R218, whose zero fill the spec marks "from general knowledge, not in
source"; log entry 11). -/
def Obligations.RsHalves : Prop :=
  ∀ (x y : Reg) (s : State), decode (wordR2 0xD x y) = .instr (.rs x y) ∧
    WritesRegister (.rs x y) x (BitVec.ofNat 32 ((s.readReg y).toNat / 2)) s

/-- LS X,Y: `x[X] <- (x[Y] * 2) mod 2^32` (43 R220). -/
def Obligations.LsDoubles : Prop :=
  ∀ (x y : Reg) (s : State), decode (wordR2 0xE x y) = .instr (.ls x y) ∧
    WritesRegister (.ls x y) x (BitVec.ofNat 32 ((s.readReg y).toNat * 2 % 2 ^ 32)) s

/-! ### Rules of the whole machine (10, 20) -/

/-- Registers 5, 6 and 7: a write takes effect with `CONST_REGS_HARDWIRED = false`; with `true` it "is discarded and
the register keeps its constant; every other effect of the instruction, the PC update included, still happens"
(10 R24). -/
def Obligations.ConstRegWrites : Prop :=
  ∀ (i : Instr) (s : State) (x : Reg) (v : Word), registerWrite i s = some (x, v) → x = 5 ∨ x = 6 ∨ x = 7 →
    ∃ t, exec i s = .next t ∧
      (s.cfg.constRegsHardwired = false → t.readReg x = v) ∧
      (s.cfg.constRegsHardwired = true → t.readReg x = s.readReg x ∧ (s.constRegsHeld → t.constRegsHeld)) ∧
      PcAdvances s t s.pc ∧ (∀ r, r ≠ 0 → r ≠ x → t.readReg r = s.readReg r) ∧
      SameFlags s t ∧ SameLatches s t ∧ SameMemory s t ∧ SameFixed s t

/-- No instruction changes a register but the PC and the one its operand X writes (10 R25). -/
def Obligations.RegisterFrame : Prop :=
  ∀ (i : Instr) (s t : State) (r : Reg), exec i s = .next t → r ≠ 0 →
    (∀ v, registerWrite i s ≠ some (r, v)) → t.readReg r = s.readReg r

/-- The flags are "mutated only by `SF`, read only by `BIN`/`BIZ`", BIN reads N and BIZ reads Z, and the host
reads both (10 R31). Not to read a flag is: with other flags the instruction does the same. -/
def Obligations.FlagsMutatedOnlyBySf : Prop :=
  ∀ (i : Instr) (s t : State), exec i s = .next t →
    ((∀ x, i ≠ .sf x) → SameFlags s t) ∧
    (∀ x, i = .sf x → (t.z = true ↔ s.readReg x = 0x00000000#32) ∧ (t.n = true ↔ 2 ^ 31 ≤ (s.readReg x).toNat) ∧
      ∀ a b, exec i (s.setFlags a b) = .next t) ∧
    ((∀ x, i ≠ .sf x) → (∀ j, i ≠ .bin j) → (∀ j, i ≠ .biz j) →
      ∀ a b, exec i (s.setFlags a b) = .next (t.setFlags a b)) ∧
    (∀ j, i = .bin j → ∀ b, exec i (s.setFlags s.n b) = .next (t.setFlags s.n b)) ∧
    (∀ j, i = .biz j → ∀ a, exec i (s.setFlags a s.z) = .next (t.setFlags a s.z)) ∧
    s.peekFlags = (s.n, s.z)

/-- "SA, SB, RD, WR and SW are the only instructions that change or use the latches for memory. RB only reads
MBR", "WR reads both latches and writes neither, RD writes only MBR, SA writes only MAR, SB writes only MBR, and SW
writes both" (41 R171), each with the value its own rule gives. Not to use a latch is: with another value in it the
instruction does the same. To read both latches is, for WR: the word at the old MAR reads as the old MBR, in a memory
in its canonical form (log entry 1). -/
def Obligations.LatchUsers : Prop :=
  ∀ (i : Instr) (s t : State), exec i s = .next t →
    (touchesLatches i = false → SameLatches s t ∧
      ∀ a b, exec i ((s.setMar a).setMbr b) = .next ((t.setMar a).setMbr b)) ∧
    (∀ x, i = .rb x → SameLatches s t ∧ (x ≠ 0 → t.readReg x = stored s x s.mbr) ∧
      PcAdvances s t (if x = 0 then s.mbr else s.pc) ∧ ∀ a, exec i (s.setMar a) = .next (t.setMar a)) ∧
    (i = .wr → SameLatches s t ∧ SameMemoryBut s.mar s t ∧
      (Memory.wf s.mem = true → t.readMem s.mar = s.mbr)) ∧
    (i = .rd → t.mar = s.mar ∧ t.mbr = s.readMem s.mar) ∧
    (∀ x, i = .sb x → t.mar = s.mar ∧ t.mbr = s.readReg x) ∧
    (∀ x, i = .sa x → t.mar = s.readReg x ∧ t.mbr = s.mbr) ∧
    (∀ x y, i = .sw x y → t.mar = s.readReg x ∧ t.mbr = s.readReg y)

/-- Only WR and SW store, one word, at MAR and at `x[X]` (20 R56, 41 R176, R180): for every other instruction all of
memory reads as before, and for these every other address does. -/
def Obligations.MemoryFrame : Prop :=
  ∀ (i : Instr) (s t : State), exec i s = .next t →
    (storeAddress i s = none → SameMemory s t) ∧ ∀ a, storeAddress i s = some a → SameMemoryBut a s t

/-- A read gives the word last written at the address (20 R51, R52), and 0 where there is none. The memory is in
its canonical form (log entry 1). -/
def Obligations.MemoryReadsLastWrite : Prop :=
  (∀ (s : State) (a v : Word), Memory.wf s.mem = true → (s.writeMem a v).readMem a = v) ∧
  (∀ (s : State) (a b v : Word), b ≠ a → (s.writeMem a v).readMem b = s.readMem b) ∧
  ∀ (s : State) (a : Word), (∀ p ∈ s.mem, p.1 ≠ a.toNat) → s.readMem a = 0x00000000#32

/-- "`WR` followed by `RD` at the same address returns the previously written value" (20 R52, 41 R176): directly, or
with any number of instructions other than WR and SW between them, at whose end MAR is what it was at the WR. -/
def Obligations.WrThenRd : Prop :=
  ∀ (s t u : State) (is : List Instr), Memory.wf s.mem = true → exec .wr s = .next t →
    (∀ i ∈ is, i ≠ .wr ∧ ∀ x y, i ≠ .sw x y) → execAll is t = .next u → u.mar = s.mar →
    ∃ v, exec .rd u = .next v ∧ v.mbr = s.mbr

/-- Canonical memories that read alike everywhere are equal: the form of log entry 1 holds one list for one memory
(the model's choice). -/
def Obligations.CanonicalMemoryUnique : Prop :=
  ∀ l m : Memory, Memory.wf l = true → Memory.wf m = true →
    (∀ a : Word, Memory.read l a.toNat = Memory.read m a.toNat) → l = m

/-- "The instruction store holds `N_INSTR` 40-bit words at indices 0 to `N_INSTR - 1`. The host loads it at
construction. Nothing changes it afterwards" (10 R40): no step, no run, no stop request, no continue. -/
def Obligations.StoreNeverChanges : Prop :=
  (∀ cfg regInits memInits image t, construct cfg regInits memInits image = .next t →
    t.imem = image ∧ t.nInstr = image.length) ∧
  (∀ s t, step s = .next t → t.imem = s.imem) ∧
  (∀ s, (hostStep s).2.imem = s.imem ∧ (requestStop s).imem = s.imem) ∧
  (∀ limit reqs s r t, run limit reqs s = some (r, t) → t.imem = s.imem) ∧
  ∀ breaks reqs s r t, debugContinue breaks reqs s = some (r, t) → t.imem = s.imem

/-- "No instruction reads it as data" (20 R53): with another store the instruction does the same. -/
def Obligations.StoreUnreadByInstructions : Prop :=
  ∀ (i : Instr) (s t : State) (l : List IWord), exec i s = .next t →
    exec i { s with imem := l } = .next { t with imem := l }

/-! ### Reset (70) and the status word (10) -/

/-- The reset sequence and its table: the last initializer of each register and word wins, registers 5, 6 and 7 are
forced, everything else is 0, false or none (70 R260, R263; 10 R23). -/
def Obligations.ConstructResets : Prop :=
  ∀ (cfg : Config) (regInits : List (Reg × Word)) (memInits : List (Word × Word)) (image : List IWord),
    image.length ≤ 2 ^ 32 - 1 → ∃ t, construct cfg regInits memInits image = .next t ∧
      (∀ r, r ≠ 5 → r ≠ 6 → r ≠ 7 → t.readReg r = lastInit regInits r) ∧
      t.readReg 5 = 0x00000000#32 ∧ t.readReg 6 = 0x00000001#32 ∧ t.readReg 7 = 0xFFFFFFFF#32 ∧
      t.mar = 0x00000000#32 ∧ t.mbr = 0x00000000#32 ∧ t.n = false ∧ t.z = false ∧
      (∀ a, t.readMem a = lastInit memInits a) ∧ t.fault = none ∧ t.imem = image ∧ t.cfg = cfg ∧
      t.runState = (if (t.readReg 0).toNat < image.length then .ready else .halted) ∧
      t.causeCode = 0#4 ∧ t.faultIdx = 0x00000000#32 ∧ t.stepCount = 0 ∧ t.stopReq = false

/-- The state after reset is what `construct` makes of no initializer and no program (70 R260; the missing program
is the model's choice, log entry 3). -/
def Obligations.ResetIsEmptyConstruct : Prop :=
  construct Config.standard [] [] [] = .next State.reset

/-- A program of more than `2^32 - 1` instructions "is outside this spec: a model refuses it" (30 R115). -/
def Obligations.LongProgramRefused : Prop :=
  ∀ (cfg : Config) (regInits : List (Reg × Word)) (memInits : List (Word × Word)) (image : List IWord),
    2 ^ 32 - 1 < image.length → construct cfg regInits memInits image = .refused .programTooLong

/-- `STATUS` (10 R37): STATE in bits 1:0 is 0 for READY (`x[0] < N_INSTR`, no fault), 1 for HALTED (`x[0] >= N_INSTR`,
no fault), 2 for FAULTED, never 3; CAUSE in bits 7:4 and FAULT_IDX are those of the latch, 0 without a fault; zeros
elsewhere. -/
def Obligations.StatusWord : Prop :=
  ∀ s : State,
    (s.fault = none → (s.readReg 0).toNat < s.imem.length →
      s.runState = .ready ∧ s.status.extractLsb' 0 2 = 0#2) ∧
    (s.fault = none → s.imem.length ≤ (s.readReg 0).toNat →
      s.runState = .halted ∧ s.status.extractLsb' 0 2 = 1#2) ∧
    (∀ c k, s.fault = some (c, k) → s.runState = .faulted ∧ s.status.extractLsb' 0 2 = 2#2) ∧
    s.status.extractLsb' 0 2 ≠ 3#2 ∧ s.status.extractLsb' 2 2 = 0#2 ∧ s.status.extractLsb' 8 24 = 0#24 ∧
    s.status.extractLsb' 4 4 = s.causeCode ∧
    (s.fault = none → s.causeCode = 0#4 ∧ s.faultIdx = 0x00000000#32) ∧
    (∀ k, s.fault = some (.illegalInstruction, k) → s.causeCode = 1#4 ∧ s.faultIdx = k) ∧
    ∀ k, s.fault = some (.pcOverflow, k) → s.causeCode = 2#4 ∧ s.faultIdx = k

/-! ### The invariant -/

/-- The invariant holds after reset (70 R260, R263). That the memory is canonical is the model's form (log entry 1). -/
def Obligations.ResetMeetsInvariant : Prop := State.reset.Inv

/-- The invariant holds after every `construct` (70 R260). That the memory is canonical is the model's form (log
entry 1). -/
def Obligations.ConstructMeetsInvariant : Prop :=
  ∀ cfg regInits memInits image t, construct cfg regInits memInits image = .next t → t.Inv

/-- Every step keeps the invariant: hardwired registers keep their constants (10 R24), N and Z are never both true
(42 R190, where the spec derives it), a latched fault is one of 60 R232, the store stays one that fits (30 R115), and
the memory stays canonical, which is the model's form (log entry 1). -/
def Obligations.StepKeepsInvariant : Prop :=
  ∀ s t : State, s.Inv → step s = .next t → t.Inv

/-! ### The run loop (40) -/

/-- A run is its steps: it leaves the state that `STEP_COUNT` single steps of the machine leave, whatever stop
requests arrive (40 R149, R151). -/
def Obligations.RunIsIteratedStep : Prop :=
  ∀ limit reqs (s t : State) r, run limit reqs s = some (r, t) →
    ∃ u, stepTimes t.stepCount s = .next u ∧ SameMachine u t

/-- What each result means, in the order of the tests: fault, termination, budget, stop request; every return clears
`STOP_REQ`, and a stop request is honoured at the first test that finds it (40 R149 to R154, 60 R235). That `LIMIT`
keeps the call's value after the return is the model's choice (log entry 5). -/
def Obligations.RunResultsMean : Prop :=
  ∀ limit reqs (s t : State) r, run limit reqs s = some (r, t) →
    t.stopReq = false ∧ t.limit = limit ∧ (∀ l, limit = some l → 0 < l → (t.stepCount : Int) ≤ l) ∧
    (0 < t.stepCount → ¬ stopPendingAt s reqs t.stepCount) ∧
    match r with
    | .fault c => ∃ k, t.fault = some (c, k)
    | .complete => t.fault = none ∧ t.imem.length ≤ (t.readReg 0).toNat
    | .incomplete => t.runState = .ready ∧ ∃ l, limit = some l ∧ 0 < l ∧ (t.stepCount : Int) = l
    | .stopped => t.runState = .ready ∧ stopPendingAt s reqs (t.stepCount + 1) ∧
        ∀ l, limit = some l → 0 < l → (t.stepCount : Int) < l

/-- A positive budget bounds every run: it returns within `limit + 1` rounds of tests (40 R151). -/
def Obligations.RunEndsWithinBudget : Prop :=
  ∀ (l : Int) reqs (s : State), 0 < l → l < (reqs.length : Int) → ∃ r t, run (some l) reqs s = some (r, t)

/-- "After INCOMPLETE or STOPPED, the machine is still READY"; "After COMPLETE, `run` returns COMPLETE with 0 steps.
After FAULT, it returns FAULT with 0 steps" (40 R155, which the spec derives from R149), and the state stays. -/
def Obligations.RunAgain : Prop :=
  ∀ limit reqs (s t : State) r, run limit reqs s = some (r, t) →
    (r = .incomplete ∨ r = .stopped → t.runState = .ready) ∧
    (∀ limit' req reqs', r = .complete ∨ (∃ c, r = .fault c) →
      ∃ u, run limit' (req :: reqs') t = some (r, u) ∧ u.stepCount = 0 ∧ SameMachine t u)

/-- A stop request pending before a run stops it before its first step, without a change (40 R149, R153), in READY. -/
def Obligations.StopBeforeFirstStep : Prop :=
  ∀ limit req reqs (s : State), s.runState = .ready → s.stopReq = true →
    ∃ t, run limit (req :: reqs) s = some (.stopped, t) ∧ t.stepCount = 0 ∧ t.stopReq = false ∧ SameMachine s t

/-- Continue calls `step()` once and goes on calling it exactly while the four conditions hold (60 R242, the spec's
reading D28; log entry 13). Where it returns, it does so after `k + 1` calls, with their last result and the machine
they leave: before the last the conditions held after each call, after it one fails. Where the list of arrivals ends
first, the conditions held after every call. -/
def Obligations.ContinueStops : Prop :=
  (∀ breaks reqs (s t : State) r, debugContinue breaks reqs s = some (r, t) →
    ∃ k, k < reqs.length ∧ r = (hostSteps k s).1 ∧ SameMachine (hostSteps k s).2 t ∧
      (t.stopReq = true ↔ stopPendingAt s reqs (k + 1)) ∧
      (r ≠ .ok ∨ t.runState ≠ .ready ∨ t.readReg 0 ∈ breaks ∨ t.stopReq = true) ∧
      ∀ j < k, continueGoesOn breaks reqs s j) ∧
  ∀ breaks reqs (s : State), debugContinue breaks reqs s = none →
    ∀ k < reqs.length, continueGoesOn breaks reqs s k

/-! ### The assembler (30 part B) -/

/-- A literal of mathematical value `v` is `v mod 2^32`: decimal, signed decimal, hexadecimal, binary (30 R91, R92;
that the remainder is the non-negative one the spec marks "from general knowledge", log entry 16). Each digit is
written in lower or in upper case, as its flag says. -/
def Obligations.LiteralValues : Prop :=
  ∀ ds : List (Nat × Bool), ds ≠ [] →
    let value := fun base : Nat => ds.foldl (fun v d => v * base + d.1) 0
    let digits := ds.map fun d => if d.2 then (Nat.digitChar d.1).toUpper else Nat.digitChar d.1
    ((∀ d ∈ ds, d.1 < 10) →
      (∃ w, parseLiteral digits = some w ∧ w.toNat = value 10 % 2 ^ 32) ∧
      (∃ w, parseLiteral ('+' :: digits) = some w ∧ w.toNat = value 10 % 2 ^ 32) ∧
      (∃ w, parseLiteral ('-' :: digits) = some w ∧ (w.toNat : Int) = (-(value 10 : Int)) % 2 ^ 32)) ∧
    ((∀ d ∈ ds, d.1 < 16) →
      ∃ w, parseLiteral ('0' :: 'x' :: digits) = some w ∧ w.toNat = value 16 % 2 ^ 32) ∧
    ((∀ d ∈ ds, d.1 < 2) →
      ∃ w, parseLiteral ('0' :: 'b' :: digits) = some w ∧ w.toNat = value 2 % 2 ^ 32)

/-- "register numbers in 0..15 and jump targets as integers in -1..`len(instructions) - 1`" (30 R110): every
program the assembler makes that fits a machine is well formed. -/
def Obligations.AssembledProgramResolved : Prop :=
  ∀ lines a, assemble lines = .ok a → programFits a.instrs.length = true →
    programWellFormed a.instrs = true

/-- A jump to a label lands on the first instruction after the label (30 R107, R109, R114; 40 R144): where the line
`lbl` binds `name` after `pre`, every jump to `name`, before it or after it, is resolved to a target whose landing
index is the number of instructions in `pre`, and running it, taken, goes there. -/
def Obligations.JumpLandsAfterLabel : Prop :=
  ∀ (pre post : List Text) (lbl name : Text) (before all : AsmState) (a : Assembled) (k : Nat) (op : JumpOp)
    (line : Nat) (text : Text),
    (∀ n st, processLine n lbl st = bindLabel name st) → firstPass 1 pre AsmState.empty = .ok before →
    firstPass 1 (pre ++ lbl :: post) AsmState.empty = .ok all → all.code[k]? = some (.jump op name line text) →
    assemble (pre ++ lbl :: post) = .ok a → programFits before.code.length = true →
    ∃ i, a.instrs[k]? = some (op.resolved i) ∧
      ∀ s : State, IsTaken (op.resolved i) s →
        ∃ t, exec (op.resolved i) s = .next t ∧ t.pc.toNat = before.code.length

/-- "The first diagnostic encountered aborts assembly": no line after it changes the answer, in the second pass no
placeholder after it does, and the answer holds no lists (30 R111). -/
def Obligations.FirstDiagnosticAborts : Prop :=
  (∀ (pre post : List Text) (d : Diagnostic), firstPass 1 pre AsmState.empty = .error d →
    assemble (pre ++ post) = .error d) ∧
  ∀ (lines : List Text) (st : AsmState) (pre post : List AsmInstr) (a : AsmInstr) (is : List Instr)
    (d : Diagnostic), firstPass 1 lines AsmState.empty = .ok st → st.code = pre ++ a :: post →
    resolveAll st.labels pre = .ok is → resolveOne st.labels a = .error d → assemble lines = .error d

/-- A diagnostic gives the number, from 1, of a source line and that line's text as it stands, and a kind of code 1
to 10 (30 R112). The lines before it assemble, and it is the line whose own check fails, or, for `UndefinedLabel`,
the line of a jump to a label that no line of the whole source binds. -/
def Obligations.DiagnosticNamesLine : Prop :=
  ∀ (lines : List Text) (d : Diagnostic), assemble lines = .error d →
    1 ≤ d.line ∧ lines[d.line - 1]? = some d.text ∧ 1 ≤ d.kind.code ∧ d.kind.code ≤ 10 ∧
    ∃ before, firstPass 1 (lines.take (d.line - 1)) AsmState.empty = .ok before ∧
      (((∀ name, d.kind ≠ .undefinedLabel name) ∧ processLine d.line d.text before = .error d.kind) ∨
        ∃ all op name, d.kind = .undefinedLabel name ∧ firstPass 1 lines AsmState.empty = .ok all ∧
          all.labels.lookup name = none ∧
          processLine d.line d.text before = .ok (before.append (.jump op name d.line d.text)))
end

