-- ==== Sys2Proof/Laws/Assembler.lean ====
section
/-! SUPPORT. What one source line and one placeholder can do, said once. -/

namespace Sys2Proof.Machine

/-- What a line that assembles does to the lists (30 R94 to R108): no instruction and no label, one instruction,
or one label. -/
inductive LineDoes (line : Nat) (text : Text) (st st' : AsmState) : Prop
  | noCode (code : st'.code = st.code) (labels : st'.labels = st.labels)
  | oneInstr (i : AsmInstr) (state : st' = st.append i)
      (shape : (∃ j, i = .done j ∧ ∀ n, j.wellFormed n = true) ∨ ∃ op l, i = .jump op l line text)
  | oneLabel (name : Text) (code : st'.code = st.code) (labels : st'.labels = st.labels ++ [(name, st.labelValue)])
      (new : st.labels.lookup name = none)

@[simp] theorem AsmState.append_code (st : AsmState) (i : AsmInstr) : (st.append i).code = st.code ++ [i] := rfl
@[simp] theorem AsmState.append_labels (st : AsmState) (i : AsmInstr) : (st.append i).labels = st.labels := rfl

/-- A value found in an association list stands in it. -/
theorem mem_of_lookup {α β : Type} [BEq α] [LawfulBEq α] {l : List (α × β)} {k : α} {v : β}
    (h : l.lookup k = some v) : (k, v) ∈ l := by
  induction l with
  | nil => cases h
  | cons p l ih =>
    obtain ⟨a, b⟩ := p
    rw [List.lookup_cons] at h
    split at h
    · rename_i e
      cases h
      rw [beq_iff_eq] at e
      simp [e]
    · simp [ih h]

/-- The instructions that a class makes by itself carry no target, so they are well formed in any program
(30 R103). -/
def OpClass.MakesWellFormed : OpClass → Prop
  | .zero i => ∀ n, i.wellFormed n = true
  | .oneReg mk => ∀ x n, (mk x).wellFormed n = true
  | .twoReg mk => ∀ x y n, (mk x y).wellFormed n = true
  | .jump _ => True
  | .label => True

/-- Every class of the mnemonic table does (30 R102, R103). -/
theorem mnemonicTable_makesWellFormed : ∀ p ∈ mnemonicTable, p.2.MakesWellFormed := by
  simp [mnemonicTable, OpClass.MakesWellFormed, Instr.wellFormed]

theorem lookupMnemonic_makesWellFormed {m : Text} {c : OpClass} (h : lookupMnemonic m = some c) :
    c.MakesWellFormed := mnemonicTable_makesWellFormed _ (mem_of_lookup h)

/-- Inversion of a line that assembles. -/
theorem processLine_does {line : Nat} {text : Text} {st st' : AsmState}
    (h : processLine line text st = .ok st') : LineDoes line text st st' := by
  unfold processLine at h
  split at h
  · cases h; exact .noCode rfl rfl
  · split at h
    · cases h
    · split at h
      · unfold processInitializer at h
        repeat' split at h
        all_goals (try cases h)
        all_goals exact .noCode rfl rfl
      · unfold processOperation at h
        split at h
        · cases h
        · rename_i cls hcls
          have ht := lookupMnemonic_makesWellFormed hcls
          split at h
          · cases h; exact .oneInstr _ rfl (.inl ⟨_, rfl, ht⟩)
          · split at h <;> cases h; exact .oneInstr _ rfl (.inl ⟨_, rfl, ht _⟩)
          · split at h
            · cases h
            · split at h <;> cases h; exact .oneInstr _ rfl (.inl ⟨_, rfl, ht _ _⟩)
          · cases h; exact .oneInstr _ rfl (.inr ⟨_, _, rfl⟩)
          · unfold bindLabel at h
            split at h
            · split at h
              · cases h
              · rename_i hl; cases h; exact .oneLabel _ rfl rfl hl
            · cases h
          · cases h

/-- The first pass over two pieces of source (30 R111, R113). -/
theorem firstPass_append (n : Nat) (a b : List Text) (st : AsmState) :
    firstPass n (a ++ b) st = match firstPass n a st with
      | .error d => .error d
      | .ok st' => firstPass (n + a.length) b st' := by
  induction a generalizing n st with
  | nil => rfl
  | cons t ts ih =>
    simp only [List.cons_append, firstPass]
    cases processLine n t st with
    | error k => rfl
    | ok s =>
      simp only []
      rw [ih, List.length_cons, show n + 1 + ts.length = n + (ts.length + 1) by omega]

/-- The resolution pass keeps every place: instruction `k` is the resolution of placeholder `k` (30 R109). -/
theorem resolveAll_ok {labels : List (Text × Int)} {code : List AsmInstr} {is : List Instr}
    (h : resolveAll labels code = .ok is) :
    is.length = code.length ∧
      ∀ (k : Nat) a, code[k]? = some a → ∃ i, is[k]? = some i ∧ resolveOne labels a = .ok i := by
  induction code generalizing is with
  | nil => cases h; exact ⟨rfl, by simp⟩
  | cons a as ih =>
    unfold resolveAll at h
    split at h
    · cases h
    · rename_i i hi
      split at h
      · cases h
      · rename_i js hj
        cases h
        obtain ⟨h1, h2⟩ := ih hj
        refine ⟨by simp [h1], ?_⟩
        intro k b hb
        cases k with
        | zero => simp at hb; subst hb; exact ⟨i, rfl, hi⟩
        | succ k => exact h2 k b (by simpa using hb)

/-- A failing resolution pass fails at one of its placeholders (30 R109). -/
theorem resolveAll_error {labels : List (Text × Int)} {code : List AsmInstr} {d : Diagnostic}
    (h : resolveAll labels code = .error d) : ∃ a ∈ code, resolveOne labels a = .error d := by
  induction code with
  | nil => cases h
  | cons a as ih =>
    unfold resolveAll at h
    split at h
    · rename_i e he; cases h; exact ⟨a, by simp, he⟩
    · split at h
      · rename_i e hj; cases h
        obtain ⟨b, hb, hd⟩ := ih hj
        exact ⟨b, by simp [hb], hd⟩
      · cases h

/-- An assembly that succeeds went through both passes (30 R109, R111). -/
theorem assemble_ok {lines : List Text} {a : Assembled} (h : assemble lines = .ok a) :
    ∃ st, firstPass 1 lines AsmState.empty = .ok st ∧ resolveAll st.labels st.code = .ok a.instrs := by
  unfold assemble at h
  split at h
  · cases h
  · rename_i st hst
    split at h
    · cases h
    · rename_i is his; cases h; exact ⟨st, hst, his⟩

end Sys2Proof.Machine
end

