-- ==== Sys2Proof/Laws/State.lean ====
section
/-! SUPPORT. One lemma per field per update of State, so that no proof unfolds a record update. -/

namespace Sys2Proof.Machine

variable (s : State)

@[simp] theorem State.setReg_x (r : Reg) (v : Word) : (s.setReg r v).x = s.x.set r.val v r.isLt := rfl
@[simp] theorem State.setReg_mar (r : Reg) (v : Word) : (s.setReg r v).mar = s.mar := rfl
@[simp] theorem State.setReg_mbr (r : Reg) (v : Word) : (s.setReg r v).mbr = s.mbr := rfl
@[simp] theorem State.setReg_n (r : Reg) (v : Word) : (s.setReg r v).n = s.n := rfl
@[simp] theorem State.setReg_z (r : Reg) (v : Word) : (s.setReg r v).z = s.z := rfl
@[simp] theorem State.setReg_mem (r : Reg) (v : Word) : (s.setReg r v).mem = s.mem := rfl
@[simp] theorem State.setReg_fault (r : Reg) (v : Word) : (s.setReg r v).fault = s.fault := rfl
@[simp] theorem State.setReg_imem (r : Reg) (v : Word) : (s.setReg r v).imem = s.imem := rfl
@[simp] theorem State.setReg_cfg (r : Reg) (v : Word) : (s.setReg r v).cfg = s.cfg := rfl
@[simp] theorem State.setReg_stepCount (r : Reg) (v : Word) : (s.setReg r v).stepCount = s.stepCount := rfl
@[simp] theorem State.setReg_limit (r : Reg) (v : Word) : (s.setReg r v).limit = s.limit := rfl
@[simp] theorem State.setReg_stopReq (r : Reg) (v : Word) : (s.setReg r v).stopReq = s.stopReq := rfl

@[simp] theorem State.setMar_x (v : Word) : (s.setMar v).x = s.x := rfl
@[simp] theorem State.setMar_mar (v : Word) : (s.setMar v).mar = v := rfl
@[simp] theorem State.setMar_mbr (v : Word) : (s.setMar v).mbr = s.mbr := rfl
@[simp] theorem State.setMar_n (v : Word) : (s.setMar v).n = s.n := rfl
@[simp] theorem State.setMar_z (v : Word) : (s.setMar v).z = s.z := rfl
@[simp] theorem State.setMar_mem (v : Word) : (s.setMar v).mem = s.mem := rfl
@[simp] theorem State.setMar_fault (v : Word) : (s.setMar v).fault = s.fault := rfl
@[simp] theorem State.setMar_imem (v : Word) : (s.setMar v).imem = s.imem := rfl
@[simp] theorem State.setMar_cfg (v : Word) : (s.setMar v).cfg = s.cfg := rfl
@[simp] theorem State.setMar_stepCount (v : Word) : (s.setMar v).stepCount = s.stepCount := rfl
@[simp] theorem State.setMar_limit (v : Word) : (s.setMar v).limit = s.limit := rfl
@[simp] theorem State.setMar_stopReq (v : Word) : (s.setMar v).stopReq = s.stopReq := rfl

@[simp] theorem State.setMbr_x (v : Word) : (s.setMbr v).x = s.x := rfl
@[simp] theorem State.setMbr_mar (v : Word) : (s.setMbr v).mar = s.mar := rfl
@[simp] theorem State.setMbr_mbr (v : Word) : (s.setMbr v).mbr = v := rfl
@[simp] theorem State.setMbr_n (v : Word) : (s.setMbr v).n = s.n := rfl
@[simp] theorem State.setMbr_z (v : Word) : (s.setMbr v).z = s.z := rfl
@[simp] theorem State.setMbr_mem (v : Word) : (s.setMbr v).mem = s.mem := rfl
@[simp] theorem State.setMbr_fault (v : Word) : (s.setMbr v).fault = s.fault := rfl
@[simp] theorem State.setMbr_imem (v : Word) : (s.setMbr v).imem = s.imem := rfl
@[simp] theorem State.setMbr_cfg (v : Word) : (s.setMbr v).cfg = s.cfg := rfl
@[simp] theorem State.setMbr_stepCount (v : Word) : (s.setMbr v).stepCount = s.stepCount := rfl
@[simp] theorem State.setMbr_limit (v : Word) : (s.setMbr v).limit = s.limit := rfl
@[simp] theorem State.setMbr_stopReq (v : Word) : (s.setMbr v).stopReq = s.stopReq := rfl

@[simp] theorem State.setFlags_x (a b : Bool) : (s.setFlags a b).x = s.x := rfl
@[simp] theorem State.setFlags_mar (a b : Bool) : (s.setFlags a b).mar = s.mar := rfl
@[simp] theorem State.setFlags_mbr (a b : Bool) : (s.setFlags a b).mbr = s.mbr := rfl
@[simp] theorem State.setFlags_n (a b : Bool) : (s.setFlags a b).n = a := rfl
@[simp] theorem State.setFlags_z (a b : Bool) : (s.setFlags a b).z = b := rfl
@[simp] theorem State.setFlags_mem (a b : Bool) : (s.setFlags a b).mem = s.mem := rfl
@[simp] theorem State.setFlags_fault (a b : Bool) : (s.setFlags a b).fault = s.fault := rfl
@[simp] theorem State.setFlags_imem (a b : Bool) : (s.setFlags a b).imem = s.imem := rfl
@[simp] theorem State.setFlags_cfg (a b : Bool) : (s.setFlags a b).cfg = s.cfg := rfl
@[simp] theorem State.setFlags_stepCount (a b : Bool) : (s.setFlags a b).stepCount = s.stepCount := rfl
@[simp] theorem State.setFlags_limit (a b : Bool) : (s.setFlags a b).limit = s.limit := rfl
@[simp] theorem State.setFlags_stopReq (a b : Bool) : (s.setFlags a b).stopReq = s.stopReq := rfl

@[simp] theorem State.setMem_x (m : Memory) : (s.setMem m).x = s.x := rfl
@[simp] theorem State.setMem_mar (m : Memory) : (s.setMem m).mar = s.mar := rfl
@[simp] theorem State.setMem_mbr (m : Memory) : (s.setMem m).mbr = s.mbr := rfl
@[simp] theorem State.setMem_n (m : Memory) : (s.setMem m).n = s.n := rfl
@[simp] theorem State.setMem_z (m : Memory) : (s.setMem m).z = s.z := rfl
@[simp] theorem State.setMem_mem (m : Memory) : (s.setMem m).mem = m := rfl
@[simp] theorem State.setMem_fault (m : Memory) : (s.setMem m).fault = s.fault := rfl
@[simp] theorem State.setMem_imem (m : Memory) : (s.setMem m).imem = s.imem := rfl
@[simp] theorem State.setMem_cfg (m : Memory) : (s.setMem m).cfg = s.cfg := rfl
@[simp] theorem State.setMem_stepCount (m : Memory) : (s.setMem m).stepCount = s.stepCount := rfl
@[simp] theorem State.setMem_limit (m : Memory) : (s.setMem m).limit = s.limit := rfl
@[simp] theorem State.setMem_stopReq (m : Memory) : (s.setMem m).stopReq = s.stopReq := rfl

@[simp] theorem State.raiseFault_x (c : Cause) (k : Word) : (s.raiseFault c k).x = s.x := rfl
@[simp] theorem State.raiseFault_mar (c : Cause) (k : Word) : (s.raiseFault c k).mar = s.mar := rfl
@[simp] theorem State.raiseFault_mbr (c : Cause) (k : Word) : (s.raiseFault c k).mbr = s.mbr := rfl
@[simp] theorem State.raiseFault_n (c : Cause) (k : Word) : (s.raiseFault c k).n = s.n := rfl
@[simp] theorem State.raiseFault_z (c : Cause) (k : Word) : (s.raiseFault c k).z = s.z := rfl
@[simp] theorem State.raiseFault_mem (c : Cause) (k : Word) : (s.raiseFault c k).mem = s.mem := rfl
@[simp] theorem State.raiseFault_fault (c : Cause) (k : Word) : (s.raiseFault c k).fault = some (c, k) := rfl
@[simp] theorem State.raiseFault_imem (c : Cause) (k : Word) : (s.raiseFault c k).imem = s.imem := rfl
@[simp] theorem State.raiseFault_cfg (c : Cause) (k : Word) : (s.raiseFault c k).cfg = s.cfg := rfl
@[simp] theorem State.raiseFault_stepCount (c : Cause) (k : Word) : (s.raiseFault c k).stepCount = s.stepCount := rfl
@[simp] theorem State.raiseFault_limit (c : Cause) (k : Word) : (s.raiseFault c k).limit = s.limit := rfl
@[simp] theorem State.raiseFault_stopReq (c : Cause) (k : Word) : (s.raiseFault c k).stopReq = s.stopReq := rfl

@[simp] theorem State.countStep_x : (s.countStep).x = s.x := rfl
@[simp] theorem State.countStep_mar : (s.countStep).mar = s.mar := rfl
@[simp] theorem State.countStep_mbr : (s.countStep).mbr = s.mbr := rfl
@[simp] theorem State.countStep_n : (s.countStep).n = s.n := rfl
@[simp] theorem State.countStep_z : (s.countStep).z = s.z := rfl
@[simp] theorem State.countStep_mem : (s.countStep).mem = s.mem := rfl
@[simp] theorem State.countStep_fault : (s.countStep).fault = s.fault := rfl
@[simp] theorem State.countStep_imem : (s.countStep).imem = s.imem := rfl
@[simp] theorem State.countStep_cfg : (s.countStep).cfg = s.cfg := rfl
@[simp] theorem State.countStep_stepCount : (s.countStep).stepCount = s.stepCount + 1 := rfl
@[simp] theorem State.countStep_limit : (s.countStep).limit = s.limit := rfl
@[simp] theorem State.countStep_stopReq : (s.countStep).stopReq = s.stopReq := rfl

@[simp] theorem State.beginRun_x (l : Option Int) : (s.beginRun l).x = s.x := rfl
@[simp] theorem State.beginRun_mar (l : Option Int) : (s.beginRun l).mar = s.mar := rfl
@[simp] theorem State.beginRun_mbr (l : Option Int) : (s.beginRun l).mbr = s.mbr := rfl
@[simp] theorem State.beginRun_n (l : Option Int) : (s.beginRun l).n = s.n := rfl
@[simp] theorem State.beginRun_z (l : Option Int) : (s.beginRun l).z = s.z := rfl
@[simp] theorem State.beginRun_mem (l : Option Int) : (s.beginRun l).mem = s.mem := rfl
@[simp] theorem State.beginRun_fault (l : Option Int) : (s.beginRun l).fault = s.fault := rfl
@[simp] theorem State.beginRun_imem (l : Option Int) : (s.beginRun l).imem = s.imem := rfl
@[simp] theorem State.beginRun_cfg (l : Option Int) : (s.beginRun l).cfg = s.cfg := rfl
@[simp] theorem State.beginRun_stepCount (l : Option Int) : (s.beginRun l).stepCount = 0 := rfl
@[simp] theorem State.beginRun_limit (l : Option Int) : (s.beginRun l).limit = l := rfl
@[simp] theorem State.beginRun_stopReq (l : Option Int) : (s.beginRun l).stopReq = s.stopReq := rfl

@[simp] theorem State.clearStop_x : (s.clearStop).x = s.x := rfl
@[simp] theorem State.clearStop_mar : (s.clearStop).mar = s.mar := rfl
@[simp] theorem State.clearStop_mbr : (s.clearStop).mbr = s.mbr := rfl
@[simp] theorem State.clearStop_n : (s.clearStop).n = s.n := rfl
@[simp] theorem State.clearStop_z : (s.clearStop).z = s.z := rfl
@[simp] theorem State.clearStop_mem : (s.clearStop).mem = s.mem := rfl
@[simp] theorem State.clearStop_fault : (s.clearStop).fault = s.fault := rfl
@[simp] theorem State.clearStop_imem : (s.clearStop).imem = s.imem := rfl
@[simp] theorem State.clearStop_cfg : (s.clearStop).cfg = s.cfg := rfl
@[simp] theorem State.clearStop_stepCount : (s.clearStop).stepCount = s.stepCount := rfl
@[simp] theorem State.clearStop_limit : (s.clearStop).limit = s.limit := rfl
@[simp] theorem State.clearStop_stopReq : (s.clearStop).stopReq = false := rfl

@[simp] theorem requestStop_stopReq : (requestStop s).stopReq = true := rfl
@[simp] theorem requestStop_fault : (requestStop s).fault = s.fault := rfl
@[simp] theorem requestStop_imem : (requestStop s).imem = s.imem := rfl
@[simp] theorem requestStop_x : (requestStop s).x = s.x := rfl
@[simp] theorem requestStop_limit : (requestStop s).limit = s.limit := rfl
@[simp] theorem requestStop_stepCount : (requestStop s).stepCount = s.stepCount := rfl

end Sys2Proof.Machine
end

