-- ==== Sys2Proof/Laws/Ops.lean ====
section
/-! SUPPORT. What each shared operation does, said once: register reads after each update, the fields each
update leaves, and the PC update. -/

namespace Sys2Proof.Machine

variable (s : State)

/-! ### Register reads -/

@[simp] theorem State.readReg_setReg_same (r : Reg) (v : Word) : (s.setReg r v).readReg r = v := by
  simp [State.readReg, State.setReg]

theorem State.readReg_setReg_ne {r q : Reg} (v : Word) (h : q ≠ r) : (s.setReg r v).readReg q = s.readReg q := by
  have h' : r.val ≠ q.val := fun e => h (Fin.ext e.symm)
  simp [State.readReg, State.setReg, h']

/-- A register read after a raw register write. -/
theorem State.readReg_setReg (r q : Reg) (v : Word) :
    (s.setReg r v).readReg q = if q = r then v else s.readReg q := by
  split_ifs with h
  · subst h; simp
  · exact s.readReg_setReg_ne v h

/-- A register read after an instruction's register write: the old value where the configuration discards
the write (10 R24). -/
theorem State.readReg_writeReg (r q : Reg) (v : Word) :
    (s.writeReg r v).readReg q =
      if q = r then (if s.cfg.constRegsHardwired && isConstReg r then s.readReg r else v)
      else s.readReg q := by
  unfold State.writeReg
  by_cases h : (s.cfg.constRegsHardwired && isConstReg r) = true
  · simp only [h, if_true]
    split_ifs with hq
    · rw [hq]
    · rfl
  · simp only [h, Bool.false_eq_true, if_false]
    exact s.readReg_setReg r q v

/-- Register 0 is no constant register: a write to it always takes effect. -/
theorem State.writeReg_zero (v : Word) : s.writeReg 0 v = s.setPc v := by
  simp [State.writeReg, State.setPc, isConstReg]

@[simp] theorem State.readReg_setMar (v : Word) (q : Reg) : (s.setMar v).readReg q = s.readReg q := rfl
@[simp] theorem State.pc_setMar (v : Word) : (s.setMar v).pc = s.pc := rfl
@[simp] theorem State.readReg_setMbr (v : Word) (q : Reg) : (s.setMbr v).readReg q = s.readReg q := rfl
@[simp] theorem State.pc_setMbr (v : Word) : (s.setMbr v).pc = s.pc := rfl
@[simp] theorem State.readReg_setFlags (a b : Bool) (q : Reg) : (s.setFlags a b).readReg q = s.readReg q := rfl
@[simp] theorem State.pc_setFlags (a b : Bool) : (s.setFlags a b).pc = s.pc := rfl
@[simp] theorem State.readReg_setMem (m : Memory) (q : Reg) : (s.setMem m).readReg q = s.readReg q := rfl
@[simp] theorem State.pc_setMem (m : Memory) : (s.setMem m).pc = s.pc := rfl
@[simp] theorem State.readReg_raiseFault (c : Cause) (k : Word) (q : Reg) : (s.raiseFault c k).readReg q = s.readReg q := rfl
@[simp] theorem State.pc_raiseFault (c : Cause) (k : Word) : (s.raiseFault c k).pc = s.pc := rfl
@[simp] theorem State.readReg_writeMem (a v : Word) (q : Reg) : (s.writeMem a v).readReg q = s.readReg q := rfl
@[simp] theorem State.pc_writeMem (a v : Word) : (s.writeMem a v).pc = s.pc := rfl
@[simp] theorem State.readReg_generateFlags (v : Word) (q : Reg) : (s.generateFlags v).readReg q = s.readReg q := rfl
@[simp] theorem State.pc_generateFlags (v : Word) : (s.generateFlags v).pc = s.pc := rfl
@[simp] theorem State.readReg_countStep (q : Reg) : (s.countStep).readReg q = s.readReg q := rfl
@[simp] theorem State.pc_countStep : (s.countStep).pc = s.pc := rfl
@[simp] theorem State.readReg_beginRun (l : Option Int) (q : Reg) : (s.beginRun l).readReg q = s.readReg q := rfl
@[simp] theorem State.pc_beginRun (l : Option Int) : (s.beginRun l).pc = s.pc := rfl
@[simp] theorem State.readReg_clearStop (q : Reg) : (s.clearStop).readReg q = s.readReg q := rfl
@[simp] theorem State.pc_clearStop : (s.clearStop).pc = s.pc := rfl

@[simp] theorem State.pc_setPc (v : Word) : (s.setPc v).pc = v := s.readReg_setReg_same 0 v

theorem State.readReg_setPc {q : Reg} (v : Word) (h : q ≠ 0) : (s.setPc v).readReg q = s.readReg q :=
  s.readReg_setReg_ne v h

/-- The PC after an instruction's register write (10 R22). -/
theorem State.pc_writeReg (r : Reg) (v : Word) : (s.writeReg r v).pc = if r = 0 then v else s.pc := by
  by_cases h : r = 0
  · subst h; rw [s.writeReg_zero]; simp
  · have h' : (0 : Reg) ≠ r := fun e => h e.symm
    simp only [State.pc, s.readReg_writeReg, h, h', if_false]

/-! ### Fields that the composite updates leave -/

@[simp] theorem State.setPc_mar (v : Word) : (s.setPc v).mar = s.mar := rfl
@[simp] theorem State.updateTaken_mar : s.updateTaken.mar = s.mar := rfl
@[simp] theorem State.writeMem_mar (a v : Word) : (s.writeMem a v).mar = s.mar := rfl
@[simp] theorem State.generateFlags_mar (v : Word) : (s.generateFlags v).mar = s.mar := rfl
@[simp] theorem State.writeReg_mar (r : Reg) (v : Word) : (s.writeReg r v).mar = s.mar := by
  unfold State.writeReg; split <;> rfl
@[simp] theorem State.updateNext_mar (k : Word) : (s.updateNext k).mar = s.mar := by
  unfold State.updateNext; split
  · rfl
  · split <;> rfl
@[simp] theorem State.setPc_mbr (v : Word) : (s.setPc v).mbr = s.mbr := rfl
@[simp] theorem State.updateTaken_mbr : s.updateTaken.mbr = s.mbr := rfl
@[simp] theorem State.writeMem_mbr (a v : Word) : (s.writeMem a v).mbr = s.mbr := rfl
@[simp] theorem State.generateFlags_mbr (v : Word) : (s.generateFlags v).mbr = s.mbr := rfl
@[simp] theorem State.writeReg_mbr (r : Reg) (v : Word) : (s.writeReg r v).mbr = s.mbr := by
  unfold State.writeReg; split <;> rfl
@[simp] theorem State.updateNext_mbr (k : Word) : (s.updateNext k).mbr = s.mbr := by
  unfold State.updateNext; split
  · rfl
  · split <;> rfl
@[simp] theorem State.setPc_n (v : Word) : (s.setPc v).n = s.n := rfl
@[simp] theorem State.updateTaken_n : s.updateTaken.n = s.n := rfl
@[simp] theorem State.writeMem_n (a v : Word) : (s.writeMem a v).n = s.n := rfl
@[simp] theorem State.writeReg_n (r : Reg) (v : Word) : (s.writeReg r v).n = s.n := by
  unfold State.writeReg; split <;> rfl
@[simp] theorem State.updateNext_n (k : Word) : (s.updateNext k).n = s.n := by
  unfold State.updateNext; split
  · rfl
  · split <;> rfl
@[simp] theorem State.setPc_z (v : Word) : (s.setPc v).z = s.z := rfl
@[simp] theorem State.updateTaken_z : s.updateTaken.z = s.z := rfl
@[simp] theorem State.writeMem_z (a v : Word) : (s.writeMem a v).z = s.z := rfl
@[simp] theorem State.writeReg_z (r : Reg) (v : Word) : (s.writeReg r v).z = s.z := by
  unfold State.writeReg; split <;> rfl
@[simp] theorem State.updateNext_z (k : Word) : (s.updateNext k).z = s.z := by
  unfold State.updateNext; split
  · rfl
  · split <;> rfl
@[simp] theorem State.setPc_mem (v : Word) : (s.setPc v).mem = s.mem := rfl
@[simp] theorem State.updateTaken_mem : s.updateTaken.mem = s.mem := rfl
@[simp] theorem State.generateFlags_mem (v : Word) : (s.generateFlags v).mem = s.mem := rfl
@[simp] theorem State.writeReg_mem (r : Reg) (v : Word) : (s.writeReg r v).mem = s.mem := by
  unfold State.writeReg; split <;> rfl
@[simp] theorem State.updateNext_mem (k : Word) : (s.updateNext k).mem = s.mem := by
  unfold State.updateNext; split
  · rfl
  · split <;> rfl
@[simp] theorem State.setPc_fault (v : Word) : (s.setPc v).fault = s.fault := rfl
@[simp] theorem State.updateTaken_fault : s.updateTaken.fault = s.fault := rfl
@[simp] theorem State.writeMem_fault (a v : Word) : (s.writeMem a v).fault = s.fault := rfl
@[simp] theorem State.generateFlags_fault (v : Word) : (s.generateFlags v).fault = s.fault := rfl
@[simp] theorem State.writeReg_fault (r : Reg) (v : Word) : (s.writeReg r v).fault = s.fault := by
  unfold State.writeReg; split <;> rfl
@[simp] theorem State.setPc_imem (v : Word) : (s.setPc v).imem = s.imem := rfl
@[simp] theorem State.updateTaken_imem : s.updateTaken.imem = s.imem := rfl
@[simp] theorem State.writeMem_imem (a v : Word) : (s.writeMem a v).imem = s.imem := rfl
@[simp] theorem State.generateFlags_imem (v : Word) : (s.generateFlags v).imem = s.imem := rfl
@[simp] theorem State.writeReg_imem (r : Reg) (v : Word) : (s.writeReg r v).imem = s.imem := by
  unfold State.writeReg; split <;> rfl
@[simp] theorem State.updateNext_imem (k : Word) : (s.updateNext k).imem = s.imem := by
  unfold State.updateNext; split
  · rfl
  · split <;> rfl
@[simp] theorem State.setPc_cfg (v : Word) : (s.setPc v).cfg = s.cfg := rfl
@[simp] theorem State.updateTaken_cfg : s.updateTaken.cfg = s.cfg := rfl
@[simp] theorem State.writeMem_cfg (a v : Word) : (s.writeMem a v).cfg = s.cfg := rfl
@[simp] theorem State.generateFlags_cfg (v : Word) : (s.generateFlags v).cfg = s.cfg := rfl
@[simp] theorem State.writeReg_cfg (r : Reg) (v : Word) : (s.writeReg r v).cfg = s.cfg := by
  unfold State.writeReg; split <;> rfl
@[simp] theorem State.updateNext_cfg (k : Word) : (s.updateNext k).cfg = s.cfg := by
  unfold State.updateNext; split
  · rfl
  · split <;> rfl
@[simp] theorem State.setPc_stepCount (v : Word) : (s.setPc v).stepCount = s.stepCount := rfl
@[simp] theorem State.updateTaken_stepCount : s.updateTaken.stepCount = s.stepCount := rfl
@[simp] theorem State.writeMem_stepCount (a v : Word) : (s.writeMem a v).stepCount = s.stepCount := rfl
@[simp] theorem State.generateFlags_stepCount (v : Word) : (s.generateFlags v).stepCount = s.stepCount := rfl
@[simp] theorem State.writeReg_stepCount (r : Reg) (v : Word) : (s.writeReg r v).stepCount = s.stepCount := by
  unfold State.writeReg; split <;> rfl
@[simp] theorem State.updateNext_stepCount (k : Word) : (s.updateNext k).stepCount = s.stepCount := by
  unfold State.updateNext; split
  · rfl
  · split <;> rfl
@[simp] theorem State.setPc_limit (v : Word) : (s.setPc v).limit = s.limit := rfl
@[simp] theorem State.updateTaken_limit : s.updateTaken.limit = s.limit := rfl
@[simp] theorem State.writeMem_limit (a v : Word) : (s.writeMem a v).limit = s.limit := rfl
@[simp] theorem State.generateFlags_limit (v : Word) : (s.generateFlags v).limit = s.limit := rfl
@[simp] theorem State.writeReg_limit (r : Reg) (v : Word) : (s.writeReg r v).limit = s.limit := by
  unfold State.writeReg; split <;> rfl
@[simp] theorem State.updateNext_limit (k : Word) : (s.updateNext k).limit = s.limit := by
  unfold State.updateNext; split
  · rfl
  · split <;> rfl
@[simp] theorem State.setPc_stopReq (v : Word) : (s.setPc v).stopReq = s.stopReq := rfl
@[simp] theorem State.updateTaken_stopReq : s.updateTaken.stopReq = s.stopReq := rfl
@[simp] theorem State.writeMem_stopReq (a v : Word) : (s.writeMem a v).stopReq = s.stopReq := rfl
@[simp] theorem State.generateFlags_stopReq (v : Word) : (s.generateFlags v).stopReq = s.stopReq := rfl
@[simp] theorem State.writeReg_stopReq (r : Reg) (v : Word) : (s.writeReg r v).stopReq = s.stopReq := by
  unfold State.writeReg; split <;> rfl
@[simp] theorem State.updateNext_stopReq (k : Word) : (s.updateNext k).stopReq = s.stopReq := by
  unfold State.updateNext; split
  · rfl
  · split <;> rfl

@[simp] theorem State.writeMem_mem (a v : Word) : (s.writeMem a v).mem = Memory.write s.mem a.toNat v := rfl
@[simp] theorem State.generateFlags_n (v : Word) : (s.generateFlags v).n = negativeFlag v := rfl
@[simp] theorem State.generateFlags_z (v : Word) : (s.generateFlags v).z = zeroFlag v := rfl

/-! ### The PC update (40 R144, R145) -/

@[simp] theorem State.pc_updateTaken : s.updateTaken.pc = s.pc + 1#32 := s.pc_setPc _

theorem State.readReg_updateTaken {q : Reg} (h : q ≠ 0) : s.updateTaken.readReg q = s.readReg q :=
  s.readReg_setPc _ h

/-- The update changes register 0 only. -/
theorem State.readReg_updateNext {q : Reg} (k : Word) (h : q ≠ 0) :
    (s.updateNext k).readReg q = s.readReg q := by
  unfold State.updateNext
  split
  · exact s.readReg_setPc _ h
  · split
    · rfl
    · exact s.readReg_setPc _ h
    · rfl

/-- Below `0xFFFFFFFF` the update is the plain increment, in every mode. -/
theorem State.updateNext_of_ne (k : Word) (h : s.pc ≠ allOnes32) : s.updateNext k = s.setPc (s.pc + 1#32) := by
  simp [State.updateNext, h]

/-- Out of `0xFFFFFFFF` the update is as `PC_OVERFLOW_MODE` says. -/
theorem State.updateNext_of_eq (k : Word) (h : s.pc = allOnes32) :
    s.updateNext k =
      match s.cfg.pcOverflowMode with
      | .fault => s.raiseFault .pcOverflow k
      | .wrap => s.setPc 0x00000000#32
      | .saturate => s := by
  cases hm : s.cfg.pcOverflowMode <;> simp [State.updateNext, h, hm]

/-- The one way an update raises a fault (60 R232). -/
theorem State.updateNext_fault (k : Word) :
    (s.updateNext k).fault =
      if s.pc = allOnes32 ∧ s.cfg.pcOverflowMode = .fault then some (.pcOverflow, k) else s.fault := by
  by_cases h : s.pc = allOnes32
  · rw [s.updateNext_of_eq k h]
    cases hm : s.cfg.pcOverflowMode <;> simp [h]
  · rw [s.updateNext_of_ne k h]
    simp [h]

/-! ### Memory through the state -/

theorem State.readMem_writeMem_same (a v : Word) (h : Memory.wf s.mem = true) :
    (s.writeMem a v).readMem a = v := Memory.read_write_same a.toNat v h

theorem State.readMem_writeMem_ne {a b : Word} (v : Word) (h : b ≠ a) :
    (s.writeMem a v).readMem b = s.readMem b :=
  Memory.read_write_ne s.mem v (fun e => h (BitVec.eq_of_toNat_eq e))

end Sys2Proof.Machine
end

