-- ==== Sys2Proof/Laws/Exec.lean ====
section
/-! SUPPORT. What every instruction does, said once (40 R156, R157): an effect and the PC update after it.
Later proofs cite `exec_eq` and the effect's lemmas, and never unfold a meaning. -/

namespace Sys2Proof.Machine

/-- Whether the instruction is a taken jump in the state (40 R157). -/
def takenOf (i : Instr) (s : State) : Bool :=
  match i with
  | .go _ => true
  | .bin _ => s.n
  | .biz _ => s.z
  | .sa _ | .rb _ | .rd | .wr | .sb _ | .sf _ => false
  | .add _ _ | .and _ _ | .mv _ _ | .not _ _ | .rs _ _ | .ls _ _ | .sw _ _ => false

/-- The state after the effect, before the PC update (40 R157). -/
def effectOf (i : Instr) (s : State) : State :=
  match i with
  | .sa x => s.setMar (s.readReg x)
  | .rb x => s.writeReg x s.mbr
  | .rd => s.setMbr (s.readMem s.mar)
  | .wr => s.writeMem s.mar s.mbr
  | .sb x => s.setMbr (s.readReg x)
  | .sf x => s.generateFlags (s.readReg x)
  | .go i => s.setPc i
  | .bin i => if s.n then s.setPc i else s
  | .biz i => if s.z then s.setPc i else s
  | .add x y => s.writeReg x (aluAdd (s.readReg x) (s.readReg y))
  | .and x y => s.writeReg x (aluAnd (s.readReg x) (s.readReg y))
  | .mv x y => s.writeReg x (s.readReg y)
  | .not x y => s.writeReg x (aluNot (s.readReg y))
  | .rs x y => s.writeReg x (aluRs (s.readReg y))
  | .ls x y => s.writeReg x (aluLs (s.readReg y))
  | .sw x y => ((s.setMar (s.readReg x)).setMbr (s.readReg y)).writeMem (s.readReg x) (s.readReg y)

/-- The state after the instruction. -/
def afterOf (i : Instr) (s : State) : State :=
  if takenOf i s then (effectOf i s).updateTaken else (effectOf i s).updateNext s.pc

/-- Every instruction completes, with its effect and then the PC update. -/
theorem exec_eq (i : Instr) (s : State) : exec i s = .next (afterOf i s) := by
  cases i with
  | bin i => cases h : s.n <;> simp [exec, execBin, retire, retireTaken, afterOf, takenOf, effectOf, h]
  | biz i => cases h : s.z <;> simp [exec, execBiz, retire, retireTaken, afterOf, takenOf, effectOf, h]
  | _ => rfl

/-- Inversion: the next state of an instruction. -/
theorem exec_next {i : Instr} {s t : State} (h : exec i s = .next t) : t = afterOf i s := by
  rw [exec_eq] at h
  cases h
  rfl

/-- What one step can do, guards included (40 R156). -/
theorem step_next {s t : State} (h : step s = .next t) :
    s.fault = none ∧ ∃ w, s.fetch = some w ∧
      ((legal w = false ∧ t = s.takeIllegal) ∨ (∃ i, decode w = .instr i ∧ t = afterOf i s)) := by
  unfold step at h
  split at h
  · cases h
  · rename_i hf
    refine ⟨hf, ?_⟩
    split at h
    · cases h
    · rename_i w hw
      refine ⟨w, hw, ?_⟩
      split at h
      · rename_i hd
        left
        cases hl : legal w
        · cases h; exact ⟨rfl, rfl⟩
        · simp [decode, hl] at hd
      · rename_i i hd
        right
        exact ⟨i, hd, exec_next h⟩

end Sys2Proof.Machine
end

