-- ==== Sys2Proof/Laws/Effects.lean ====
section
/-! SUPPORT. What an effect and the PC update leave, in the terms of Safety; READY, the host's step and the
tests of the run loop. -/

namespace Sys2Proof.Machine

/-! ### Effects -/

theorem isTaken_iff (i : Instr) (s : State) : IsTaken i s ↔ takenOf i s = true := by
  cases i <;> simp [IsTaken, takenOf]

/-- `x[0] + 1` as a number, below `0xFFFFFFFF`. -/
theorem toNat_succ {p : Word} (h : p ≠ allOnes32) : (p + 1#32).toNat = p.toNat + 1 := by
  have h1 : p.toNat ≠ 0xFFFFFFFF := fun e => h (BitVec.eq_of_toNat_eq e)
  have h2 := p.isLt
  simp [BitVec.toNat_add]; omega

theorem effectOf_fault (i : Instr) (s : State) : (effectOf i s).fault = s.fault := by
  cases i <;> simp [effectOf] <;> split <;> simp

theorem effectOf_cfg (i : Instr) (s : State) : (effectOf i s).cfg = s.cfg := by
  cases i <;> simp [effectOf] <;> split <;> simp

theorem effectOf_sameFixed (i : Instr) (s : State) : SameFixed s (effectOf i s) := by
  cases i <;> refine ⟨?_, ?_, ?_, ?_, ?_⟩ <;> simp [effectOf] <;> split <;> simp

theorem afterOf_sameFixed (i : Instr) (s : State) : SameFixed s (afterOf i s) := by
  obtain ⟨a, b, c, d, e⟩ := effectOf_sameFixed i s
  unfold afterOf
  split <;> simp [SameFixed, a, b, c, d, e]

/-- Where register 0 is left with `p`, the update is that of 40 R145. -/
theorem State.updateNext_pcAdvances (s e : State) (hf : e.fault = s.fault) (hc : e.cfg = s.cfg) :
    PcAdvances s (e.updateNext s.pc) e.pc := by
  constructor
  · intro h
    rw [e.updateNext_of_ne _ h]
    simp [toNat_succ h, hf]
  · intro h
    rw [e.updateNext_of_eq _ h, hc]
    cases s.cfg.pcOverflowMode <;> simp [hf] <;> exact h

theorem ofNat_add_toNat (a b : Word) : BitVec.ofNat 32 (a.toNat + b.toNat) = a + b := by
  apply BitVec.eq_of_toNat_eq; simp

theorem ofNat_complement_toNat (a : Word) : BitVec.ofNat 32 (2 ^ 32 - 1 - a.toNat) = ~~~a := by
  apply BitVec.eq_of_toNat_eq; simp [BitVec.toNat_not]; omega

theorem ofNat_half_toNat (a : Word) : BitVec.ofNat 32 (a.toNat / 2) = a >>> 1 := by
  apply BitVec.eq_of_toNat_eq; simp [BitVec.toNat_ushiftRight, Nat.shiftRight_eq_div_pow]; omega

theorem ofNat_double_toNat (a : Word) : BitVec.ofNat 32 (a.toNat * 2) = a <<< 1 := by
  apply BitVec.eq_of_toNat_eq; simp [BitVec.toNat_shiftLeft, Nat.shiftLeft_eq]

theorem negativeFlag_iff (v : Word) : negativeFlag v = true ↔ 2 ^ 31 ≤ v.toNat := by
  have h : negativeFlag v = v.msb := by simp [negativeFlag, BitVec.msb_eq_getLsbD_last]
  rw [h, BitVec.msb_eq_decide]; simp

theorem zeroFlag_iff (v : Word) : zeroFlag v = true ↔ v = 0x00000000#32 := by simp [zeroFlag]

/-- An instruction that writes a register has that write for its effect, and is no taken jump. -/
theorem effectOf_registerWrite {i : Instr} {s : State} {x : Reg} {v : Word}
    (h : registerWrite i s = some (x, v)) : effectOf i s = s.writeReg x v ∧ takenOf i s = false := by
  cases i <;> simp [registerWrite] at h <;> obtain ⟨rfl, rfl⟩ := h <;>
    simp [effectOf, takenOf, aluAdd, aluAnd, aluNot, aluRs, aluLs, ofNat_half_toNat, ofNat_double_toNat]
  · rw [ofNat_add_toNat]
  · rw [← ofNat_complement_toNat]; rfl

/-- The value a register holds after a write to it. -/
theorem readReg_writeReg_stored (s : State) {x : Reg} (v : Word) :
    (s.writeReg x v).readReg x = stored s x v := by
  rw [s.readReg_writeReg]; simp [stored, isConstReg, or_assoc]

/-- Register 0 after an effect that is no taken jump is `p` of 40 R145. -/
theorem effectOf_pc {i : Instr} {s : State} (h : takenOf i s = false) :
    (effectOf i s).pc = pcAfterEffect i s := by
  cases hw : registerWrite i s with
  | some p =>
    obtain ⟨x, v⟩ := p
    rw [(effectOf_registerWrite hw).1, State.pc_writeReg]; simp [pcAfterEffect, hw]
  | none =>
    cases i <;> simp [registerWrite] at hw <;> simp [pcAfterEffect, registerWrite, effectOf] <;>
      simp_all [takenOf]

/-- The one way an instruction raises a fault (40 R145, 60 R232). -/
theorem afterOf_fault (i : Instr) (s : State) :
    (afterOf i s).fault =
      if takenOf i s = false ∧ pcAfterEffect i s = allOnes32 ∧ s.cfg.pcOverflowMode = .fault
      then some (.pcOverflow, s.pc) else s.fault := by
  unfold afterOf
  cases h : takenOf i s
  · simp [State.updateNext_fault, effectOf_pc h, effectOf_cfg, effectOf_fault]
  · simp [effectOf_fault]

/-! ### READY, the host's step, the run loop's tests -/

theorem runState_ready_iff (s : State) : s.runState = .ready ↔ s.fault = none ∧ s.pc.toNat < s.imem.length := by
  unfold State.runState State.nInstr
  cases s.fault <;> simp

/-- In READY the machine steps (40 R141). -/
theorem step_of_ready {s : State} (h : s.runState = .ready) : ∃ t, step s = .next t := by
  obtain ⟨hf, hp⟩ := (runState_ready_iff s).1 h
  have hw : s.fetch = some s.imem[s.pc.toNat] := by simp [State.fetch, hp]
  unfold step
  simp only [hf, hw]
  cases decode s.imem[s.pc.toNat] with
  | illegal _ => exact ⟨_, rfl⟩
  | instr i => exact ⟨_, exec_eq i s⟩

theorem step_sameFixed {s t : State} (h : step s = .next t) : SameFixed s t := by
  obtain ⟨_, w, _, ⟨_, rfl⟩ | ⟨i, _, rfl⟩⟩ := step_next h
  · exact ⟨rfl, rfl, rfl, rfl, rfl⟩
  · exact afterOf_sameFixed i s

/-- Where the machine steps, the host's step leaves the same state. -/
theorem hostStep_state {s t : State} (h : step s = .next t) : (hostStep s).2 = t := by
  unfold hostStep
  rw [h]
  dsimp only
  split <;> rfl

@[simp] theorem execAll_nil (s : State) : execAll [] s = .next s := rfl

/-- The first of a list of instructions completes, and the rest go on from its state. -/
@[simp] theorem execAll_cons (i : Instr) (is : List Instr) (s : State) :
    execAll (i :: is) s = execAll is (afterOf i s) := by
  simp [execAll, exec_eq]

@[simp] theorem hostSteps_zero (s : State) : hostSteps 0 s = hostStep s := rfl
@[simp] theorem hostSteps_succ (k : Nat) (s : State) : hostSteps (k + 1) s = hostSteps k (hostStep s).2 := rfl

/-- The host's step leaves `STOP_REQ`. -/
@[simp] theorem hostStep_stopReq (s : State) : (hostStep s).2.stopReq = s.stopReq := by
  unfold hostStep
  split
  · rename_i t ht
    have h := (step_sameFixed ht).2.2.2.2
    split <;> exact h
  all_goals rfl

/-- The loop goes on only in READY, with budget left and no stop request (40 R149). -/
theorem runTest_none {s : State} (h : runTest s = none) :
    s.runState = .ready ∧ s.budgetSpent = false ∧ s.stopReq = false := by
  unfold runTest at h
  split at h
  · cases h
  · rename_i hf
    split_ifs at h with h1 h2 h3
    refine ⟨(runState_ready_iff s).2 ⟨hf, ?_⟩, ?_, ?_⟩
    · exact Nat.lt_of_not_le h1
    · simpa using h2
    · simpa using h3

/-- One round of the loop: it returns, or it steps and goes on (40 R149). -/
theorem runLoop_cons {q : Bool} {qs : List Bool} {s t : State} {r : RunResult}
    (h : runLoop (q :: qs) s = some (r, t)) :
    (runTest (requestStopIf q s) = some r ∧ t = (requestStopIf q s).clearStop) ∨
      ∃ u, runTest (requestStopIf q s) = none ∧ step (requestStopIf q s) = .next u ∧
        runLoop qs u.countStep = some (r, t) := by
  unfold runLoop at h
  dsimp only at h
  split at h
  · rename_i r' h'; cases h; exact .inl ⟨h', rfl⟩
  · rename_i h'
    obtain ⟨u, hu⟩ := step_of_ready (runTest_none h').1
    rw [hostStep_state hu] at h
    exact .inr ⟨u, h', hu, h⟩

end Sys2Proof.Machine
end

