-- ==== Sys2Proof/Laws/Encoding.lean ====
section
/-! SUPPORT. The fields of a laid-out word (30 R71), and a word from its fields. -/

namespace Sys2Proof.Laws

@[simp] theorem regOfField_fieldOfReg (x : Reg) : regOfField (fieldOfReg x) = x := by
  apply Fin.ext
  simp [fieldOfReg, regOfField]

@[simp] theorem fieldOfReg_regOfField (b : BitVec 4) : fieldOfReg (regOfField b) = b := by
  simp [fieldOfReg, regOfField]

@[simp] theorem opField_layout (op rx : BitVec 4) (opd : Word) : opField (layout op rx opd) = op := by
  unfold opField layout
  rw [BitVec.extractLsb'_append_eq_ite]
  simp only [Nat.reduceLT, Nat.reduceSub]
  rw [BitVec.extractLsb'_append_eq_ite]
  simp

@[simp] theorem rxField_layout (op rx : BitVec 4) (opd : Word) : rxField (layout op rx opd) = rx := by
  unfold rxField layout
  rw [BitVec.extractLsb'_append_eq_ite]
  simp only [Nat.lt_irrefl, Nat.reduceSub]
  rw [BitVec.extractLsb'_append_eq_ite]
  simp

@[simp] theorem opdField_layout (op rx : BitVec 4) (opd : Word) : opdField (layout op rx opd) = opd := by
  unfold opdField layout
  rw [BitVec.extractLsb'_append_eq_ite]
  simp

@[simp] theorem opdOfY_high (y : Reg) : (opdOfY y).extractLsb' 4 28 = 0#28 := by
  unfold opdOfY
  rw [BitVec.extractLsb'_append_eq_ite]
  simp

@[simp] theorem opdOfY_low (y : Reg) : (opdOfY y).extractLsb' 0 4 = fieldOfReg y := by
  unfold opdOfY
  rw [BitVec.extractLsb'_append_eq_ite]
  simp

/-- A word of format N has zeros where they must be (30 R75). -/
theorem legal_encodeN (op : BitVec 4) (h : formatOfOp op = .n) : legal (encodeN op) = true := by
  simp [legal, encodeN, h, mustBeZeroOk]

/-- A word of format R1 has zeros where they must be (30 R75). -/
theorem legal_encodeR1 (op : BitVec 4) (x : Reg) (h : formatOfOp op = .r1) : legal (encodeR1 op x) = true := by
  simp [legal, encodeR1, h, mustBeZeroOk]

/-- A word of format J has zeros where they must be (30 R75). -/
theorem legal_encodeJ (op : BitVec 4) (i : Word) (h : formatOfOp op = .j) : legal (encodeJ op i) = true := by
  simp [legal, encodeJ, h, mustBeZeroOk]

/-- A word of format R2 has zeros where they must be (30 R75). -/
theorem legal_encodeR2 (op : BitVec 4) (x y : Reg) (h : formatOfOp op = .r2) : legal (encodeR2 op x y) = true := by
  simp [legal, encodeR2, h, mustBeZeroOk, opdHighField]

/-- `OP ++ RX ++ OPD` is the whole word: the three fields drop no bit (30 R71). -/
theorem layout_fields (w : IWord) : layout (opField w) (rxField w) (opdField w) = w := by
  unfold layout opField rxField opdField
  rw [BitVec.extractLsb'_append_extractLsb'_eq_extractLsb' (by rfl)]
  erw [BitVec.extractLsb'_append_extractLsb'_eq_extractLsb' (by rfl)]
  simp

/-- `OPD[31:4] ++ OPD[3:0]` is all of `OPD` (30 R71). -/
theorem opd_fields (w : IWord) : opdHighField w ++ ryField w = opdField w := by
  unfold opdHighField ryField
  erw [BitVec.extractLsb'_append_extractLsb'_eq_extractLsb' (by rfl)]
  simp

end Sys2Proof.Laws
end

