-- ==== Sys2Proof/Laws/PerInstr.lean ====
section
/-! SUPPORT. One lemma per instruction: its word is legal (30 R75, R78). -/

namespace Sys2Proof.Laws

/-- The encoding of the instruction has zeros in every must-be-zero bit of its format, whatever its
operands (30 R75, R116). -/
def EncodesLegal.Statement (i : Instr) : Prop := legal (encode i) = true

theorem EncodesLegal.sa (x : Reg) : EncodesLegal.Statement (.sa x) :=
  legal_encodeR1 0x0#4 x rfl

theorem EncodesLegal.rb (x : Reg) : EncodesLegal.Statement (.rb x) :=
  legal_encodeR1 0x1#4 x rfl

theorem EncodesLegal.rd : EncodesLegal.Statement (.rd) :=
  legal_encodeN 0x2#4 rfl

theorem EncodesLegal.wr : EncodesLegal.Statement (.wr) :=
  legal_encodeN 0x3#4 rfl

theorem EncodesLegal.sb (x : Reg) : EncodesLegal.Statement (.sb x) :=
  legal_encodeR1 0x4#4 x rfl

theorem EncodesLegal.sf (x : Reg) : EncodesLegal.Statement (.sf x) :=
  legal_encodeR1 0x5#4 x rfl

theorem EncodesLegal.go (i : Word) : EncodesLegal.Statement (.go i) :=
  legal_encodeJ 0x6#4 i rfl

theorem EncodesLegal.bin (i : Word) : EncodesLegal.Statement (.bin i) :=
  legal_encodeJ 0x7#4 i rfl

theorem EncodesLegal.biz (i : Word) : EncodesLegal.Statement (.biz i) :=
  legal_encodeJ 0x8#4 i rfl

theorem EncodesLegal.add (x y : Reg) : EncodesLegal.Statement (.add x y) :=
  legal_encodeR2 0x9#4 x y rfl

theorem EncodesLegal.and (x y : Reg) : EncodesLegal.Statement (.and x y) :=
  legal_encodeR2 0xA#4 x y rfl

theorem EncodesLegal.mv (x y : Reg) : EncodesLegal.Statement (.mv x y) :=
  legal_encodeR2 0xB#4 x y rfl

theorem EncodesLegal.not (x y : Reg) : EncodesLegal.Statement (.not x y) :=
  legal_encodeR2 0xC#4 x y rfl

theorem EncodesLegal.rs (x y : Reg) : EncodesLegal.Statement (.rs x y) :=
  legal_encodeR2 0xD#4 x y rfl

theorem EncodesLegal.ls (x y : Reg) : EncodesLegal.Statement (.ls x y) :=
  legal_encodeR2 0xE#4 x y rfl

theorem EncodesLegal.sw (x y : Reg) : EncodesLegal.Statement (.sw x y) :=
  legal_encodeR2 0xF#4 x y rfl

end Sys2Proof.Laws
end

