-- ==== Sys2Proof/Laws/Words.lean ====
section
/-! SUPPORT. The fields of a word as numbers, and the words of the opcode map written as numbers as laid-out
words (30 R71 to R73). -/

namespace Sys2Proof.Laws

open Sys2Proof.Machine

theorem opField_toNat (w : IWord) : (opField w).toNat = w.toNat / 2 ^ 36 := by
  simp [opField, BitVec.extractLsb'_toNat, Nat.shiftRight_eq_div_pow]; omega

theorem rxField_toNat (w : IWord) : (rxField w).toNat = w.toNat / 2 ^ 32 % 16 := by
  simp [rxField, BitVec.extractLsb'_toNat, Nat.shiftRight_eq_div_pow]

theorem opdField_toNat (w : IWord) : (opdField w).toNat = w.toNat % 2 ^ 32 := by
  simp [opdField, BitVec.extractLsb'_toNat]

theorem opdHighField_toNat (w : IWord) : (opdHighField w).toNat = w.toNat / 16 % 2 ^ 28 := by
  simp [opdHighField, BitVec.extractLsb'_toNat, Nat.shiftRight_eq_div_pow, opdField_toNat]; omega

theorem ryField_toNat (w : IWord) : (ryField w).toNat = w.toNat % 16 := by
  simp [ryField, BitVec.extractLsb'_toNat, opdField_toNat]

/-- A laid-out word is its three fields. -/
theorem layout_inj {a a' b b' : BitVec 4} {c c' : Word} :
    layout a b c = layout a' b' c' ↔ a = a' ∧ b = b' ∧ c = c' := by
  constructor
  · intro h
    have h1 := congrArg opField h
    have h2 := congrArg rxField h
    have h3 := congrArg opdField h
    simp only [opField_layout, rxField_layout, opdField_layout] at h1 h2 h3
    exact ⟨h1, h2, h3⟩
  · rintro ⟨rfl, rfl, rfl⟩; rfl

/-- A masked word, field by field. -/
theorem and_layout (w : IWord) (mo mr : BitVec 4) (md : Word) :
    w &&& layout mo mr md = layout (opField w &&& mo) (rxField w &&& mr) (opdField w &&& md) := by
  conv_lhs => rw [← layout_fields w]
  unfold layout
  erw [BitVec.and_append, BitVec.and_append]

/-- The must-be-zero test of a laid-out word. -/
theorem mustBeZeroOk_layout (f : Format) (op rx : BitVec 4) (opd : Word) :
    mustBeZeroOk f (layout op rx opd) = match f with
      | .n => rx == 0#4 && opd == 0#32
      | .r1 => opd == 0#32
      | .j => rx == 0#4
      | .r2 => opd.extractLsb' 4 28 == 0#28 := by
  cases f <;> simp [mustBeZeroOk, opdHighField]

theorem wordN_eq_layout (op : Nat) (_h : op < 16) : wordN op = layout (BitVec.ofNat 4 op) 0#4 0#32 := by
  unfold wordN layout
  apply BitVec.eq_of_toNat_eq
  erw [BitVec.toNat_append, BitVec.toNat_append]
  simp [Nat.shiftLeft_eq]
  omega

theorem wordJ_eq_layout (op : Nat) (_h : op < 16) (i : Word) : wordJ op i = layout (BitVec.ofNat 4 op) 0#4 i := by
  unfold wordJ layout
  apply BitVec.eq_of_toNat_eq
  erw [BitVec.toNat_append, BitVec.toNat_append]
  rw [← Nat.shiftLeft_add_eq_or_of_lt (by exact i.isLt)]
  simp [Nat.shiftLeft_eq]
  omega

theorem wordR1_eq_layout (op : Nat) (_h : op < 16) (x : Reg) :
    wordR1 op x = layout (BitVec.ofNat 4 op) (fieldOfReg x) 0#32 := by
  unfold wordR1 layout
  apply BitVec.eq_of_toNat_eq
  erw [BitVec.toNat_append, BitVec.toNat_append]
  rw [← Nat.shiftLeft_add_eq_or_of_lt (by exact BitVec.isLt _),
    ← Nat.shiftLeft_add_eq_or_of_lt (by exact BitVec.isLt _)]
  simp only [fieldOfReg]
  simp [Nat.shiftLeft_eq]
  omega

theorem wordR2_eq_layout (op : Nat) (_h : op < 16) (x y : Reg) :
    wordR2 op x y = layout (BitVec.ofNat 4 op) (fieldOfReg x) (opdOfY y) := by
  unfold wordR2 layout opdOfY
  apply BitVec.eq_of_toNat_eq
  erw [BitVec.toNat_append, BitVec.toNat_append]
  rw [← Nat.shiftLeft_add_eq_or_of_lt (by exact BitVec.isLt _),
    ← Nat.shiftLeft_add_eq_or_of_lt (by exact BitVec.isLt _)]
  erw [BitVec.toNat_append]
  rw [← Nat.shiftLeft_add_eq_or_of_lt (by exact BitVec.isLt _)]
  simp only [fieldOfReg]
  simp [Nat.shiftLeft_eq]
  omega

end Sys2Proof.Laws
end

