-- ==== Sys2Proof/Tests/Slice0.lean ====
section
/-! SUPPORT. The model's own tests: the smoke test of WellFormed, decoding, one step of each instruction, the
two faults, the host's transactions, the assembler, and a witness for the hypotheses of each statement. Expected
values are those of spec/95_test_vectors.md, the examples in the rules, or hand calculation from the rules. -/

namespace Sys2Proof.Tests

open Sys2Proof Sys2Proof.Machine

/-! ### Helpers -/

/-- A machine after reset with the PC at `k` and these registers. -/
def atIndex (k : Word) (regs : List (Reg × Word)) : State :=
  regs.foldl (fun s p => s.setReg p.1 p.2) (State.reset.setReg 0 k)

/-- The fields `f` of the state that one step on word `w` leaves. -/
def after {α : Type} (w : Nat) (s : State) (f : State → α) : Option α :=
  match step (s.withFetchWord 40 w) with
  | .next t => some (f t)
  | .fault _ => none
  | .refused _ => none

/-- A machine constructed from words alone. -/
def machine (image : List IWord) : State := constructed Config.standard [] [] image

/-- The same machine in another mode of 40 R145. -/
def inMode (m : PcOverflowMode) (s : State) : State := { s with cfg := { s.cfg with pcOverflowMode := m } }

/-- The same machine with hardwired constant registers. -/
def hardwired (s : State) : State := { s with cfg := { s.cfg with constRegsHardwired := true } }

/-- The result, the step count and the PC of a run without stop requests. -/
def ranTo (limit : Int) (s : State) : Option (RunResult × Nat × Word) :=
  (run (some limit) (List.replicate 40 false) s).map (fun p => (p.1, p.2.stepCount, p.2.pc))

/-- The code and the line of the diagnostic, if there is one. -/
def diag (lines : List String) : Option (Nat × Nat) :=
  match assemble (lines.map String.toList) with
  | .error d => some (d.kind.code, d.line)
  | .ok _ => none

/-- The image the assembler makes, if it makes one. -/
def image (lines : List String) : Option (List IWord) :=
  match assemble (lines.map String.toList) with
  | .error _ => none
  | .ok a => some (storeImage a.instrs)

/-! ### WellFormed (30 R110, R115) -/

theorem test_wf_refuses_go_past_end : programWellFormed [.go 2#32, .rd] = false := by decide
theorem test_wf_refuses_bin_past_end : programWellFormed [.rd, .bin 5#32] = false := by decide
theorem test_wf_refuses_biz_past_end : programWellFormed [.biz 0xFFFFFFFE#32] = false := by decide
theorem test_wf_refuses_long_program : programFits (2 ^ 32) = false := by decide
theorem test_wf_accepts_longest_program : programFits (2 ^ 32 - 1) = true := by decide
theorem test_wf_accepts_resolved_targets :
    programWellFormed [.go 0xFFFFFFFF#32, .bin 0#32, .biz 3#32, .sw 15 15] = true := by decide

/-! ### Decoding: one written-out word a constructor (30 R73, 95 part 2) -/

theorem test_decode_sa : decode 0x0300000000#40 = .instr (.sa 3) := by decide
theorem test_decode_rb : decode 0x1400000000#40 = .instr (.rb 4) := by decide
theorem test_decode_rd : decode 0x2000000000#40 = .instr .rd := by decide
theorem test_decode_wr : decode 0x3000000000#40 = .instr .wr := by decide
theorem test_decode_sb : decode 0x4200000000#40 = .instr (.sb 2) := by decide
theorem test_decode_sf : decode 0x5100000000#40 = .instr (.sf 1) := by decide
theorem test_decode_go : decode 0x60FFFFFFFF#40 = .instr (.go 0xFFFFFFFF#32) := by decide
theorem test_decode_bin : decode 0x7000000005#40 = .instr (.bin 5#32) := by decide
theorem test_decode_biz : decode 0x8000000004#40 = .instr (.biz 4#32) := by decide
theorem test_decode_add : decode 0x9100000002#40 = .instr (.add 1 2) := by decide
theorem test_decode_and : decode 0xA100000005#40 = .instr (.and 1 5) := by decide
theorem test_decode_mv : decode 0xBA0000000B#40 = .instr (.mv 10 11) := by decide
theorem test_decode_not : decode 0xC100000002#40 = .instr (.not 1 2) := by decide
theorem test_decode_rs : decode 0xD100000007#40 = .instr (.rs 1 7) := by decide
theorem test_decode_ls : decode 0xE100000002#40 = .instr (.ls 1 2) := by decide
theorem test_decode_sw : decode 0xFA00000003#40 = .instr (.sw 10 3) := by decide

/-- ADD F,E with every bit written: `1001`, `1111`, 28 zeros, `1110`. -/
theorem test_decode_add_bits :
    decode 0b1001111100000000000000000000000000001110#40 = .instr (.add 15 14) := by decide

theorem test_encode_go : encode (.go 0xFFFFFFFF#32) = 0x60FFFFFFFF#40 := by decide
theorem test_encode_mv : encode (.mv 10 11) = 0xBA0000000B#40 := by decide

/-- The six illegal words of 95 part 2.6. -/
theorem test_decode_illegal_words :
    decode 0x2100000000#40 = .illegal .n ∧ decode 0x2000000001#40 = .illegal .n ∧
      decode 0x0000000001#40 = .illegal .r1 ∧ decode 0x6100000000#40 = .illegal .j ∧
      decode 0x9100000010#40 = .illegal .r2 ∧ decode 0xF0F0000000#40 = .illegal .r2 := by decide

theorem test_table_word_sw : decodeTableWord 40 0xF900000001 = some (.sw 9 1) := by decide
theorem test_table_word_illegal : decodeTableWord 40 0x9100000010 = none := by decide
theorem test_table_word_short : decodeTableWord 8 0x1F300000000 = some (.sa 0) := by decide

/-! ### One step of each instruction (95 parts 2.3 to 2.5) -/

theorem test_sa : after 0x0300000000 (atIndex 0 [(3, 0x10)]) (fun t => (t.mar, t.pc)) =
    some (0x10#32, 1#32) := by decide
theorem test_sa_pc : after 0x0000000000 (atIndex 2 []) (fun t => (t.mar, t.pc)) = some (2#32, 3#32) := by decide
theorem test_rb : after 0x1400000000 ((atIndex 0 []).setMbr 0x2A) (fun t => (t.readReg 4, t.pc)) =
    some (0x2A#32, 1#32) := by decide
theorem test_rb_computed_jump : after 0x1000000000 ((atIndex 1 []).setMbr 9) State.pc = some 0xA#32 := by decide
theorem test_rd : after 0x2000000000 (((atIndex 0 []).setMar 7).writeMem 7 0x12345678) State.mbr =
    some 0x12345678#32 := by decide
theorem test_rd_unwritten : after 0x2000000000 (((atIndex 0 []).setMar 8).setMbr 5) State.mbr = some 0#32 := by decide
theorem test_wr : after 0x3000000000 (((atIndex 0 []).setMar 0xFFFFFFFF).setMbr 0xDEADBEEF)
    (fun t => (t.readMem 0xFFFFFFFF, t.readMem 0xFFFFFFFE)) = some (0xDEADBEEF#32, 0#32) := by decide
theorem test_wr_zero_unlists : after 0x3000000000 (((atIndex 0 []).setMar 4).writeMem 4 9) State.mem =
    some [] := by decide
theorem test_sb : after 0x4200000000 (atIndex 0 [(2, 0xF)]) (fun t => (t.mbr, t.mar)) = some (0xF#32, 0#32) := by decide
theorem test_sf_negative : after 0x5100000000 (atIndex 0 [(1, 0x80000000)]) (fun t => (t.n, t.z)) =
    some (true, false) := by decide
theorem test_sf_zero : after 0x5000000000 ((atIndex 0 []).setFlags true false) (fun t => (t.n, t.z)) =
    some (false, true) := by decide
theorem test_go_minus_one : after 0x60FFFFFFFF (atIndex 4 []) State.pc = some 0#32 := by decide
theorem test_go : after 0x6000000005 (atIndex 0 []) State.pc = some 6#32 := by decide
theorem test_bin_taken : after 0x7000000005 ((atIndex 4 []).setFlags true false) State.pc = some 6#32 := by decide
theorem test_bin_ignores_z : after 0x7000000007 ((atIndex 4 []).setFlags false true) State.pc = some 5#32 := by decide
theorem test_biz_taken : after 0x8000000004 ((atIndex 3 []).setFlags false true) State.pc = some 5#32 := by decide
theorem test_biz_ignores_n : after 0x8000000004 ((atIndex 3 []).setFlags true false) State.pc = some 4#32 := by decide
theorem test_add_wraps : after 0x9100000002 (atIndex 0 [(1, 0xFFFFFFFF), (2, 1)]) (fun t => (t.readReg 1, t.pc)) =
    some (0#32, 1#32) := by decide
theorem test_add_pc : after 0x9000000002 (atIndex 3 [(2, 5)]) State.pc = some 9#32 := by decide
theorem test_and : after 0xA100000002 (atIndex 0 [(1, 0xF0F0F0F0), (2, 0x0FF00FF0)])
    (fun t => (t.readReg 1, t.readReg 2)) = some (0x00F000F0#32, 0x0FF00FF0#32) := by decide
theorem test_and_pc : after 0xA000000002 (atIndex 3 [(2, 0xFFFFFFFE)]) State.pc = some 3#32 := by decide
theorem test_mv : after 0xBA0000000B (atIndex 0 [(11, 3)]) (fun t => t.readReg 10) = some 3#32 := by decide
theorem test_mv_from_pc : after 0xB100000000 (atIndex 6 []) (fun t => (t.readReg 1, t.pc)) =
    some (6#32, 7#32) := by decide
theorem test_not : after 0xC300000003 (atIndex 0 [(3, 3)]) (fun t => t.readReg 3) = some 0xFFFFFFFC#32 := by decide
theorem test_not_pattern : after 0xC100000002 (atIndex 0 [(2, 0xAAAAAAAA)]) (fun t => t.readReg 1) =
    some 0x55555555#32 := by decide
theorem test_rs : after 0xD100000002 (atIndex 0 [(2, 0x80000001)]) (fun t => t.readReg 1) = some 0x40000000#32 := by
  decide
theorem test_rs_in_place : after 0xD100000001 (atIndex 0 [(1, 0xFFFFFFFE)]) (fun t => t.readReg 1) =
    some 0x7FFFFFFF#32 := by decide
theorem test_ls : after 0xE100000002 (atIndex 0 [(2, 0x80000001)]) (fun t => t.readReg 1) = some 2#32 := by decide
theorem test_ls_in_place : after 0xE100000001 (atIndex 0 [(1, 0x40000000)]) (fun t => t.readReg 1) =
    some 0x80000000#32 := by decide
theorem test_sw : after 0xF900000001 (atIndex 0 [(9, 0x21), (1, 5)]) (fun t => (t.mar, t.mbr, t.readMem 0x21)) =
    some (0x21#32, 5#32, 5#32) := by decide
theorem test_sw_pc : after 0xF000000000 (atIndex 4 []) (fun t => (t.mar, t.mbr, t.readMem 4, t.pc)) =
    some (4#32, 4#32, 4#32, 5#32) := by decide

/-! ### The PC update at its edge, the two faults, the hardwired registers -/

theorem test_pc_overflow_fault : after 0xB000000007 (atIndex 0 []) (fun t => (t.pc, t.fault)) =
    some (0xFFFFFFFF#32, some (.pcOverflow, 0#32)) := by decide
theorem test_pc_overflow_wrap : after 0xC000000005 (inMode .wrap (atIndex 2 [])) (fun t => (t.pc, t.fault)) =
    some (0#32, none) := by decide
theorem test_pc_overflow_saturate : after 0xB000000007 (inMode .saturate (atIndex 1 [])) (fun t => (t.pc, t.fault)) =
    some (0xFFFFFFFF#32, none) := by decide
theorem test_pc_plain_to_all_ones : after 0xB000000001 (atIndex 0 [(1, 0xFFFFFFFE)]) (fun t => (t.pc, t.fault)) =
    some (0xFFFFFFFF#32, none) := by decide
theorem test_illegal_word : after 0x2100000000 (atIndex 3 [])
    (fun t => (t.fault, t.status, t.faultIdx, t.pc)) =
    some (some (.illegalInstruction, 3#32), 0x12#32, 3#32, 3#32) := by decide
theorem test_hardwired_add : after 0x9600000002 (hardwired (atIndex 0 [(2, 3)])) (fun t => (t.readReg 6, t.pc)) =
    some (1#32, 1#32) := by decide
theorem test_writable_add : after 0x9600000002 (atIndex 0 [(2, 3)]) (fun t => t.readReg 6) = some 4#32 := by decide
theorem test_hardwired_sparing_others : after 0x9800000006 (hardwired (atIndex 0 [(8, 3)])) (fun t => t.readReg 8) =
    some 4#32 := by decide

/-! ### The host's transactions (95 parts 1, 2.2 and 2.7) -/

theorem test_construct_last_wins :
    let t := constructed Config.standard [(5, 9), (6, 9), (7, 9), (1, 4), (1, 8)] [(3, 1), (3, 2)] []
    (t.readReg 1, t.readReg 5, t.readReg 6, t.readReg 7, t.readMem 3) =
      (8#32, 0#32, 1#32, 0xFFFFFFFF#32, 2#32) := by decide
theorem test_reset_step_halted : step State.reset = .fault .halted := rfl
theorem test_status_halted : State.reset.peekStatus = (1#32, 0#32) := by decide
theorem test_status_ready : (machine [0x2000000000]).peekStatus = (0#32, 0#32) := by decide
theorem test_run_tie_completes : ranTo 3 (machine (List.replicate 3 0x2000000000)) =
    some (.complete, 3, 3#32) := by decide
theorem test_run_budget : ranTo 2 (machine (List.replicate 3 0x2000000000)) = some (.incomplete, 2, 2#32) := by
  decide
theorem test_run_negative_limit : ranTo (-1) (machine (List.replicate 3 0x2000000000)) =
    some (.complete, 3, 3#32) := by decide
theorem test_run_illegal : ranTo 0 (machine [0x2000000000, 0x2100000000]) =
    some (.fault .illegalInstruction, 2, 1#32) := by decide
theorem test_run_fault_before_budget : ranTo 2 (machine [0x2000000000, 0xB000000007]) =
    some (.fault .pcOverflow, 2, 0xFFFFFFFF#32) := by decide
theorem test_run_wrap : ranTo 5 (inMode .wrap (machine [0xB000000007, 0x9100000006])) =
    some (.incomplete, 5, 0#32) := by decide
theorem test_run_saturate : ranTo 5 (inMode .saturate (machine [0xB000000007, 0x9100000006])) =
    some (.complete, 1, 0xFFFFFFFF#32) := by decide
theorem test_run_stopped :
    (run none [false, true] (machine [0x60FFFFFFFF])).map (fun p => (p.1, p.2.stepCount, p.2.stopReq)) =
      some (.stopped, 1, false) := by decide
theorem test_continue_breakpoint :
    (debugContinue [2] (List.replicate 9 false) (machine (List.replicate 4 0x2000000000))).map
      (fun p => (p.1, p.2.pc)) = some (.ok, 2#32) := by decide

/-! ### The assembler (95 parts 1, 2.1, 2.2) -/

theorem test_literals :
    ["-1", "4294967296", "0x1FFFFFFFF", "-0", "007", "+5", "0b101", "0xff", "-2147483648"].map
        (fun t => parseLiteral t.toList) =
      [some 0xFFFFFFFF#32, some 0#32, some 0xFFFFFFFF#32, some 0#32, some 7#32, some 5#32, some 5#32,
        some 0xFF#32, some 0x80000000#32] := by decide
theorem test_not_literals :
    ["0X10", "0x", "0b", "0b2", "1_000", "", "-0x1", "+0b1", "1 2", "abc", "0xG"].all
      (fun t => (parseLiteral t.toList).isNone) = true := by decide
theorem test_diag_terminators :
    [["MV A, B"], ["MV A, B; x"], ["MV A, B;;"], [";"]].map diag =
      [some (1, 1), some (2, 1), some (2, 1), some (5, 1)] := by decide
theorem test_diag_initializers :
    [[": 5;"], ["AB: 5;"], ["G: 5;"], ["[10: 5;"], ["3: 0X10;"], ["[0x10]: 5: 6;"], ["[zz]: 5;"]].map diag =
      [some (3, 1), some (3, 1), some (3, 1), some (3, 1), some (4, 1), some (4, 1), some (4, 1)] := by decide
theorem test_diag_operations :
    [["FOO 1;"], ["ADD 1;"], ["RD 1;"], ["ADD 1 2;"], ["SA;"], ["LBL a, b;"], ["ADD 1,;"], ["ADD 10, 2;"]].map
        diag =
      [some (5, 1), some (6, 1), some (6, 1), some (6, 1), some (6, 1), some (6, 1), some (7, 1),
        some (7, 1)] := by decide
theorem test_diag_labels :
    [["LBL 1abc;"], ["LBL a;", "LBL a;"], ["GO 1abc;"], ["GO a;", "LBL A;"], ["GO x;", "GO y;", "LBL x;"],
        ["BIZ x;", "LBL x;", "MV 1,2 # no term"]].map diag =
      [some (9, 1), some (8, 2), some (10, 1), some (10, 1), some (10, 2), some (1, 3)] := by decide
theorem test_images :
    [["add 1,2;"], ["Mv a, B; # c"], ["   # only comment", ""], ["LBL ADD;", "GO ADD;"],
        ["RD;", "GO end;", "LBL end;"]].map image =
      [some [0x9100000002], some [0xBA0000000B], some [], some [0x60FFFFFFFF],
        some [0x2000000000, 0x6000000001]] := by decide
theorem test_initializers :
    (match assemble ["5: 99;".toList, "[-1]: 5;".toList] with
      | .ok a => some (a.regInits, a.memInits)
      | .error _ => none) = some ([(5, 99#32)], [(0xFFFFFFFF#32, 5#32)]) := by decide

/-! ### Witnesses: a state and operands that meet the hypotheses of each statement that has some, every clause at
a boundary of its range -/

/-- DecodeEncodeInverse, DecoderTotal: a legal word and an illegal one. -/
theorem witness_legal_and_illegal : legal 0xFF0000000F#40 = true ∧ legal 0xFF00000010#40 = false := by decide

/-- OpcodeMapRows: a word that fits the first row, and one that fits the last. -/
theorem witness_OpcodeMapRows : fitsRow 0 0x0000000000#40 ∧ fitsRow 15 0xFF0000000F#40 :=
  ⟨⟨_, rfl, by decide⟩, ⟨_, rfl, by decide⟩⟩

/-- StepRunsDecoded. -/
theorem witness_StepRunsDecoded :
    let s := machine [0xFA00000003]
    s.fault = none ∧ s.imem[(s.readReg 0).toNat]? = some 0xFA00000003#40 ∧
      decode 0xFA00000003#40 = .instr (.sw 10 3) := by decide

/-- IllegalWordFaults. -/
theorem witness_IllegalWordFaults :
    0x60FFFFFFFF#40 ∈ storeImage [.go 0xFFFFFFFF#32] ∧
    let s := machine [0x2100000000]
    s.fault = none ∧ s.imem[(s.readReg 0).toNat]? = some 0x2100000000#40 ∧
      legal 0x2100000000#40 = false := by decide

/-- FaultsSticky: a continue from a latched fault returns. -/
theorem witness_FaultsSticky_continue :
    (debugContinue [] [true] ((machine []).raiseFault .pcOverflow 5)).map Prod.fst =
      some (.fault .pcOverflow) := by decide

/-- StepOutsideReady, FaultsSticky: a latched fault; a PC at `N_INSTR` and the greatest PC. -/
theorem witness_StepOutsideReady :
    ((machine []).raiseFault .pcOverflow 5).fault = some (.pcOverflow, 5#32) ∧
      (machine []).fault = none ∧ (machine []).imem.length ≤ ((machine []).readReg 0).toNat ∧
      ((machine [0x2000000000]).setReg 0 0xFFFFFFFF).fault = none ∧
      ((machine [0x2000000000]).setReg 0 0xFFFFFFFF).imem.length ≤
        (((machine [0x2000000000]).setReg 0 0xFFFFFFFF).readReg 0).toNat := by decide

/-- ReadyStepReturns: READY states, one whose step raises no fault and one for each cause. -/
theorem witness_ReadyStepReturns :
    [0x2000000000, 0x2100000000, 0xB000000007].map (fun w => ((machine [w]).runState, (hostStep (machine [w])).1)) =
      [(.ready, .ok), (.ready, .fault .illegalInstruction), (.ready, .fault .pcOverflow)] := by decide

/-- FaultsSticky, ConstructMeetsInvariant, StoreNeverChanges: `construct` answers a machine. -/
theorem witness_construct_next :
    construct Config.standard [(1, 4)] [(3, 1)] [0x2000000000] =
      .next (constructed Config.standard [(1, 4)] [(3, 1)] [0x2000000000]) := rfl

/-- TakenJumpLands: each jump taken, with the greatest target and the target 0. -/
theorem witness_TakenJumpLands :
    IsTaken (.go 0xFFFFFFFF#32) State.reset ∧ IsTaken (.bin 0#32) (State.reset.setFlags true false) ∧
      IsTaken (.biz 0xFFFFFFFF#32) (State.reset.setFlags false true) := ⟨trivial, rfl, rfl⟩

/-- PcUpdateAfterOthers: a computed jump to `0xFFFFFFFF`, an untaken BIN and BIZ, a write to another register. -/
theorem witness_PcUpdateAfterOthers :
    ¬ IsTaken (.mv 0 7) State.reset ∧ pcAfterEffect (.mv 0 7) State.reset = 0xFFFFFFFF#32 ∧
      ¬ IsTaken (.bin 3#32) State.reset ∧ ¬ IsTaken (.biz 3#32) State.reset ∧
      registerWrite (.mv 1 7) State.reset = some (1, 0xFFFFFFFF#32) ∧
      programFits (machine [0xB000000007]).imem.length = true ∧
      (machine [0xB000000007]).fetch = some 0xB000000007#40 ∧
      pcAfterEffect (.mv 0 7) (machine [0xB000000007]) = 0xFFFFFFFF#32 :=
  ⟨id, by decide, Bool.false_ne_true, Bool.false_ne_true, by decide, by decide, by decide, by decide⟩

/-- FaultRecords: a step that raises each cause. -/
theorem witness_FaultRecords :
    (∃ t, step (machine [0x2100000000]) = .next t ∧ t.fault = some (.illegalInstruction, 0#32)) ∧
      ∃ t, step (machine [0xB000000007]) = .next t ∧ t.fault = some (.pcOverflow, 0#32) :=
  ⟨⟨_, rfl, rfl⟩, ⟨_, rfl, by decide⟩⟩

/-- OnlyFourOverflowPc: RB 0, ADD 0,Y, MV 0,Y and NOT 0,Y each raise it. -/
theorem witness_OnlyFourOverflowPc :
    [0x1000000000#40, 0x9000000007#40, 0xB000000007#40, 0xC000000005#40].all (fun w =>
      let s := (machine [w]).setMbr 0xFFFFFFFF
      programFits s.imem.length && s.fetch == some w && (hostStep s).2.fault == some (.pcOverflow, 0#32)) =
      true := by decide

/-- The register results of WritesRegister (RB, ADD, AND, MV, NOT, RS, LS): register 0 and another, the update
from `0xFFFFFFFF` and from below. -/
theorem witness_WritesRegister :
    (1 : Reg) ≠ 0 ∧ (2 : Reg) ≠ 0 ∧ (2 : Reg) ≠ 1 ∧ State.reset.pc ≠ 0xFFFFFFFF#32 ∧
      (State.reset.setMbr 0xFFFFFFFF).mbr = 0xFFFFFFFF#32 ∧
      stored (hardwired State.reset) 7 5 = 0xFFFFFFFF#32 ∧ stored (hardwired State.reset) 8 5 = 5#32 := by decide

/-- RdReadsMemory, WrStoresMbr, SwStoresRegister, LatchUsers, MemoryReadsLastWrite: canonical memories, with the least
and the greatest address, and an address no entry names. -/
theorem witness_canonical_memory :
    Memory.wf [] = true ∧ Memory.wf [(0, 1#32), (2 ^ 32 - 1, 0xFFFFFFFF#32)] = true ∧
      (0xFFFFFFFF#32 : Word) ≠ 0#32 ∧ ∀ p ∈ (State.reset.writeMem 0 1).mem, p.1 ≠ (0xFFFFFFFF#32).toNat := by decide

/-- GoJumps, BinJumpsIfNegative, BizJumpsIfZero: both values of each flag. -/
theorem witness_Jumps :
    (State.reset.setFlags true false).n = true ∧ ¬ State.reset.n = true ∧
      (State.reset.setFlags false true).z = true ∧ ¬ State.reset.z = true := by decide

/-- ConstRegWrites: a write to each of the three registers, hardwired and not, with the constants held. -/
theorem witness_ConstRegWrites :
    [5, 6, 7].map (fun x => registerWrite (.add x 1) State.reset) =
        [some (5, 0#32), some (6, 1#32), some (7, 0xFFFFFFFF#32)] ∧
      State.reset.cfg.constRegsHardwired = false ∧ (hardwired State.reset).cfg.constRegsHardwired = true ∧
      (hardwired State.reset).readReg 5 = 0#32 ∧ (hardwired State.reset).readReg 6 = 1#32 ∧
      (hardwired State.reset).readReg 7 = 0xFFFFFFFF#32 := by decide

/-- RegisterFrame, FlagsMutatedOnlyBySf, LatchUsers, MemoryFrame, StoreUnreadByInstructions: every instruction
answers a next state. -/
theorem witness_every_instruction_runs :
    ([.sa 1, .rb 1, .rd, .wr, .sb 1, .sf 1, .go 1, .bin 1, .biz 1, .add 1 2, .and 1 2, .mv 1 2, .not 1 2,
        .rs 1 2, .ls 1 2, .sw 1 2] : List Instr).all (fun i =>
      match exec i State.reset with
      | .next _ => true
      | .fault _ => false
      | .refused _ => false) = true := by decide

/-- RegisterFrame: a register the instruction does not write. MemoryFrame: both kinds of instruction. -/
theorem witness_frames :
    (∀ v, registerWrite (.mv 1 2) State.reset ≠ some (2, v)) ∧ storeAddress .rd State.reset = none ∧
      storeAddress .wr (State.reset.setMar 0xFFFFFFFF) = some 0xFFFFFFFF#32 ∧
      storeAddress (.sw 7 1) State.reset = some 0xFFFFFFFF#32 ∧
      touchesLatches (.add 1 2) = false ∧ (∀ x, Instr.rd ≠ .sf x) :=
  ⟨fun _ h => (nomatch h), by decide, by decide, by decide, by decide, fun _ h => (nomatch h)⟩

/-- WrThenRd: nothing between WR and RD, and two instructions. -/
theorem witness_WrThenRd :
    (∃ t u, Memory.wf State.reset.mem = true ∧ exec .wr State.reset = .next t ∧
      execAll [] t = .next u ∧ u.mar = State.reset.mar) ∧
    ∃ t u, exec .wr State.reset = .next t ∧ (∀ i ∈ [Instr.sb 7, .sa 5], i ≠ .wr ∧ ∀ x y, i ≠ .sw x y) ∧
      execAll [.sb 7, .sa 5] t = .next u ∧ u.mar = State.reset.mar :=
  ⟨⟨_, _, rfl, rfl, rfl, rfl⟩, _, _, rfl, by simp, rfl, rfl⟩

/-- CanonicalMemoryUnique. -/
theorem witness_CanonicalMemoryUnique :
    Memory.wf (Memory.write (Memory.write [] 1 5) 0 6) = true ∧ Memory.wf [(0, 6#32), (1, 5#32)] = true ∧
      ∀ a, Memory.read (Memory.write (Memory.write [] 1 5) 0 6) a = Memory.read [(0, 6#32), (1, 5#32)] a :=
  ⟨by decide, by decide, fun _ => rfl⟩

/-- ConstructResets, LongProgramRefused: an empty image, the longest, and the shortest that is too long. -/
theorem witness_image_lengths :
    ([] : List IWord).length ≤ 2 ^ 32 - 1 ∧ (List.replicate (2 ^ 32 - 1) 0x2000000000#40).length ≤ 2 ^ 32 - 1 ∧
      2 ^ 32 - 1 < (List.replicate (2 ^ 32) 0x2000000000#40).length := by
  simp only [List.length_replicate, List.length_nil]; decide

/-- StatusWord: no fault, with a PC below `N_INSTR` and one at it, and each cause with the greatest index. -/
theorem witness_StatusWord :
    (machine [0x2000000000]).fault = none ∧
      ((machine [0x2000000000]).readReg 0).toNat < (machine [0x2000000000]).imem.length ∧
      State.reset.fault = none ∧ State.reset.imem.length ≤ (State.reset.readReg 0).toNat ∧
      (State.reset.raiseFault .illegalInstruction 0xFFFFFFFF).fault = some (.illegalInstruction, 0xFFFFFFFF#32) ∧
      (State.reset.raiseFault .pcOverflow 0xFFFFFFFF).fault = some (.pcOverflow, 0xFFFFFFFF#32) := by decide

/-- StepKeepsInvariant: a state with the invariant, and its step. -/
theorem witness_StepKeepsInvariant :
    (machine [0x9100000006]).Inv ∧ ∃ t, step (machine [0x9100000006]) = .next t :=
  ⟨⟨by decide, by decide, fun h => absurd h (by decide), by unfold State.flagsExclusive; decide, trivial⟩, _, rfl⟩

/-- RunIsIteratedStep, RunResultsMean, RunAgain: a run that ends with each of the results. -/
theorem witness_run_results :
    (run (some 0) [false, false] (machine [0x2000000000])).map Prod.fst = some .complete ∧
      (run (some 1) [false, false] (machine [0x60FFFFFFFF])).map Prod.fst = some .incomplete ∧
      (run (some 2) [false, true] (machine [0x60FFFFFFFF])).map Prod.fst = some .stopped ∧
      (run none [false, false] (machine [0x2100000000])).map Prod.fst = some (.fault .illegalInstruction) := by
  decide

/-- RunEndsWithinBudget: the least budget with the shortest list. -/
theorem witness_RunEndsWithinBudget : (0 : Int) < 1 ∧ (1 : Int) < ([false, false].length : Int) := by decide

/-- StopBeforeFirstStep. -/
theorem witness_StopBeforeFirstStep :
    (requestStop (machine [0x60FFFFFFFF])).runState = .ready ∧
      (requestStop (machine [0x60FFFFFFFF])).stopReq = true := by decide

/-- ContinueStops: the list of arrivals ends first. -/
theorem witness_ContinueStops_none : debugContinue [] [false, false] (machine [0x60FFFFFFFF]) = none := rfl

/-- ContinueStops: it stops at a breakpoint, out of READY, at a stop request, and on a fault. -/
theorem witness_ContinueStops :
    ((debugContinue [1] [false] (machine (List.replicate 2 0x2000000000))).map Prod.fst = some .ok) ∧
      ((debugContinue [] [false] (machine [0x2000000000])).map Prod.fst = some .ok) ∧
      ((debugContinue [] [true] (machine [0x60FFFFFFFF])).map Prod.fst = some .ok) ∧
      (debugContinue [] [false] (machine [0x2100000000])).map Prod.fst = some (.fault .illegalInstruction) := by
  decide

/-- LiteralValues: the least and the greatest digit of each base, and both cases of F. -/
theorem witness_LiteralValues :
    ([(0, false)] : List (Nat × Bool)) ≠ [] ∧ (∀ d ∈ [(0, false), (9, true)], d.1 < 10) ∧
      (∀ d ∈ [(0, false), (15, false), (15, true)], d.1 < 16) ∧ (∀ d ∈ [(0, true), (1, false)], d.1 < 2) ∧
      Nat.digitChar 15 = 'f' ∧ (Nat.digitChar 15).toUpper = 'F' := by decide

/-- AssembledProgramResolved. -/
theorem witness_AssembledProgramResolved :
    ∃ a, assemble ["LBL top;".toList, "GO top;".toList] = .ok a ∧ programFits a.instrs.length = true :=
  ⟨{ instrs := [.go 0xFFFFFFFF#32], regInits := [], memInits := [] }, by decide, by decide⟩

/-- JumpLandsAfterLabel: a jump before the label and one after it. -/
theorem witness_JumpLandsAfterLabel :
    (∀ n st, processLine n "LBL top;".toList st = bindLabel "top".toList st) ∧
      ∃ before all a, firstPass 1 ["GO top;".toList] AsmState.empty = .ok before ∧
        firstPass 1 (["GO top;".toList] ++ "LBL top;".toList :: ["BIZ top;".toList]) AsmState.empty = .ok all ∧
        all.code[0]? = some (.jump .go "top".toList 1 "GO top;".toList) ∧
        all.code[1]? = some (.jump .biz "top".toList 3 "BIZ top;".toList) ∧
        assemble (["GO top;".toList] ++ "LBL top;".toList :: ["BIZ top;".toList]) = .ok a ∧
        programFits before.code.length = true ∧ IsTaken (JumpOp.go.resolved 0) State.reset :=
  ⟨fun _ _ => rfl, _, _, _, rfl, rfl, rfl, rfl, rfl, rfl, trivial⟩

/-- FirstDiagnosticAborts, DiagnosticNamesLine: a diagnostic of the first pass, and one of the second. -/
theorem witness_diagnostics :
    (∃ d, firstPass 1 ["RD".toList] AsmState.empty = .error d) ∧
      ∃ st is d, firstPass 1 ["RD;".toList, "GO missing;".toList] AsmState.empty = .ok st ∧
        st.code = [.done .rd] ++ .jump .go "missing".toList 2 "GO missing;".toList :: [] ∧
        resolveAll st.labels [.done .rd] = .ok is ∧
        resolveOne st.labels (.jump .go "missing".toList 2 "GO missing;".toList) = .error d :=
  ⟨⟨_, rfl⟩, _, _, _, rfl, rfl, rfl, rfl⟩

end Sys2Proof.Tests
end

section
/-! Proofs of the statements about the state (10): the register frame, the flags, the invariant, the instruction store
and the status word. -/

namespace Sys2Proof.Machine

/-! ### Register writes -/

/-- An instruction that writes a register completes with that write and nothing else but the PC update. -/
theorem writesRegister_of_registerWrite {i : Instr} {s : State} {x : Reg} {v : Word}
    (h : registerWrite i s = some (x, v)) : WritesRegister i x v s := by
  obtain ⟨heff, htaken⟩ := effectOf_registerWrite h
  have hafter : afterOf i s = (s.writeReg x v).updateNext s.pc := by simp [afterOf, htaken, heff]
  have hpc := s.updateNext_pcAdvances (s.writeReg x v) (by simp) (by simp)
  rw [s.pc_writeReg] at hpc
  refine ⟨_, exec_eq i s, ?_, ?_, hafter ▸ hpc, ?_, ?_, ?_, afterOf_sameFixed i s⟩ <;> rw [hafter]
  · intro hx
    rw [State.readReg_updateNext _ _ hx, readReg_writeReg_stored]
  · intro r hr hrx
    rw [State.readReg_updateNext _ _ hr, s.readReg_writeReg, if_neg hrx]
  · simp [SameFlags]
  · simp [SameLatches]
  · simp [SameMemory, State.readMem]

/-- The PC update, after a taken jump or not, changes register 0 only. -/
theorem readReg_afterOf (i : Instr) (s : State) {r : Reg} (hr : r ≠ 0) :
    (afterOf i s).readReg r = (effectOf i s).readReg r := by
  unfold afterOf
  split
  · exact State.readReg_updateTaken _ hr
  · exact State.readReg_updateNext _ _ hr

/-- An instruction whose effect writes no register through its operand X leaves every register but the PC. -/
theorem readReg_effectOf_of_none {i : Instr} {s : State} (h : registerWrite i s = none) {r : Reg}
    (hr : r ≠ 0) : (effectOf i s).readReg r = s.readReg r := by
  cases i with
  | go j => exact s.readReg_setPc j hr
  | bin j | biz j =>
    simp only [effectOf]
    split
    · exact s.readReg_setPc j hr
    · rfl
  | sa | rd | wr | sb | sf | sw => rfl
  | rb | add | and | mv | not | rs | ls => cases h

/-- An instruction leaves every register but the PC and the one its operand X writes (10 R25). -/
theorem readReg_afterOf_of_not_written {i : Instr} {s : State} {r : Reg} (hr : r ≠ 0)
    (hw : ∀ v, registerWrite i s ≠ some (r, v)) : (afterOf i s).readReg r = s.readReg r := by
  rw [readReg_afterOf i s hr]
  cases h : registerWrite i s with
  | none => exact readReg_effectOf_of_none h hr
  | some p =>
    obtain ⟨x, v⟩ := p
    have hrx : r ≠ x := by rintro rfl; exact hw v h
    rw [(effectOf_registerWrite h).1, s.readReg_writeReg, if_neg hrx]

/-- With `CONST_REGS_HARDWIRED = true` no instruction changes register 5, 6 or 7 (10 R24). -/
theorem readReg_afterOf_of_hardwired (i : Instr) {s : State} (hc : s.cfg.constRegsHardwired = true)
    {r : Reg} (hr : isConstReg r = true) : (afterOf i s).readReg r = s.readReg r := by
  have hr0 : r ≠ 0 := by rintro rfl; simp [isConstReg] at hr
  by_cases hw : ∃ v, registerWrite i s = some (r, v)
  · obtain ⟨v, hv⟩ := hw
    rw [readReg_afterOf i s hr0, (effectOf_registerWrite hv).1, s.readReg_writeReg]
    simp [hc, hr]
  · exact readReg_afterOf_of_not_written hr0 (not_exists.mp hw)

/-- Every instruction keeps the constants of the hardwired registers (10 R24; log entry 19). -/
theorem constRegsHeld_afterOf (i : Instr) {s : State} (h : s.constRegsHeld) : (afterOf i s).constRegsHeld := by
  intro hc
  have hcfg : (afterOf i s).cfg = s.cfg := (afterOf_sameFixed i s).2.1
  rw [hcfg] at hc
  rw [readReg_afterOf_of_hardwired i hc rfl, readReg_afterOf_of_hardwired i hc rfl,
    readReg_afterOf_of_hardwired i hc rfl]
  exact h hc

/-! ### Flags -/

/-- Every instruction but SF leaves both flags (10 R31). -/
theorem sameFlags_afterOf {i : Instr} (s : State) (hi : ∀ x, i ≠ .sf x) : SameFlags s (afterOf i s) := by
  have heff : (effectOf i s).n = s.n ∧ (effectOf i s).z = s.z := by
    cases i with
    | sf x => exact absurd rfl (hi x)
    | bin | biz => simp only [effectOf]; split <;> simp
    | _ => simp [effectOf]
  unfold afterOf
  split <;> simpa [SameFlags] using heff

/-- SF sets both flags from `x[X]` (42 R190). -/
theorem flags_afterOf_sf (x : Reg) (s : State) :
    (afterOf (.sf x) s).n = negativeFlag (s.readReg x) ∧ (afterOf (.sf x) s).z = zeroFlag (s.readReg x) := by
  simp [afterOf, takenOf, effectOf]

/-- 0 is not negative: the two flags of one value are never both set (42 R190). -/
theorem not_negativeFlag_and_zeroFlag (v : Word) : ¬ (negativeFlag v = true ∧ zeroFlag v = true) := by
  rw [negativeFlag_iff, zeroFlag_iff]
  rintro ⟨hn, rfl⟩
  exact absurd hn (by decide)

/-- Every instruction keeps the flags exclusive: SF by the value it tests, every other by leaving them. -/
theorem flagsExclusive_afterOf (i : Instr) {s : State} (h : s.flagsExclusive) :
    (afterOf i s).flagsExclusive := by
  by_cases hsf : ∃ x, i = .sf x
  · obtain ⟨x, rfl⟩ := hsf
    obtain ⟨hn, hz⟩ := flags_afterOf_sf x s
    unfold State.flagsExclusive
    rw [hn, hz]
    exact not_negativeFlag_and_zeroFlag _
  · obtain ⟨hn, hz⟩ := sameFlags_afterOf s (not_exists.mp hsf)
    unfold State.flagsExclusive
    rw [hn, hz]
    exact h

/-! ### The canonical memory -/

/-- The PC update leaves the data memory. -/
theorem mem_afterOf (i : Instr) (s : State) : (afterOf i s).mem = (effectOf i s).mem := by
  unfold afterOf
  split <;> simp

/-- Every instruction keeps the memory canonical: WR and SW by the write they make, every other by making
none (log entry 1). -/
theorem memCanonical_afterOf (i : Instr) {s : State} (h : Memory.wf s.mem = true) :
    Memory.wf (afterOf i s).mem = true := by
  rw [mem_afterOf]
  cases i with
  | wr => exact Memory.wf_write s.mar s.mbr h
  | sw x y => exact Memory.wf_write (s.readReg x) (s.readReg y) h
  | bin | biz => simp only [effectOf]; split <;> simpa using h
  | _ => simpa [effectOf] using h

/-! ### The PC overflow fault (60 R232) -/

/-- A fetch succeeds below `N_INSTR` only, so in a store that fits the PC is not `0xFFFFFFFF`. -/
theorem pc_ne_of_fetch {s : State} {w : IWord} (hfits : programFits s.imem.length = true)
    (hw : s.fetch = some w) : s.pc ≠ allOnes32 := by
  intro hpc
  obtain ⟨hlt, _⟩ := List.getElem?_eq_some_iff.mp hw
  have hall : s.pc.toNat = 2 ^ 32 - 1 := by rw [hpc]; rfl
  have hlen : s.imem.length ≤ maxProgram := by simpa [programFits] using hfits
  simp only [maxProgram] at hlen
  omega

/-- An effect that changes the PC, of an instruction that is no taken jump, is a write to register 0 (10 R22). -/
theorem registerWrite_of_pcAfterEffect {i : Instr} {s : State} {p : Word} (hpc : s.pc ≠ p)
    (h : pcAfterEffect i s = p) : registerWrite i s = some (0, p) := by
  unfold pcAfterEffect at h
  split at h
  · next x v hw =>
    split_ifs at h with hx
    · rw [hw, hx, h]
    · exact absurd h hpc
  · exact absurd h hpc

/-- Half of a word has bit 31 clear. -/
theorem ofNat_half_ne_allOnes32 (a : Word) : BitVec.ofNat 32 (a.toNat / 2) ≠ allOnes32 := by
  intro h
  have h' := congrArg BitVec.toNat h
  have ha := a.isLt
  simp at h'
  omega

/-- Twice a word has bit 0 clear. -/
theorem ofNat_double_ne_allOnes32 (a : Word) : BitVec.ofNat 32 (a.toNat * 2) ≠ allOnes32 := by
  intro h
  have h' := congrArg BitVec.toNat h
  simp at h'
  omega

/-- From a PC below `0xFFFFFFFF` only the forms of 60 R232 can leave `0xFFFFFFFF` in register 0: what AND, RS
and LS put there has a bit that is 0. -/
theorem mayOverflowPc_of_pcAfterEffect {i : Instr} {s : State} (hpc : s.pc ≠ allOnes32)
    (h : pcAfterEffect i s = allOnes32) : mayOverflowPc i = true := by
  have hw := registerWrite_of_pcAfterEffect hpc h
  cases i with
  | rb | add | mv | not =>
    obtain ⟨rfl, _⟩ := Prod.mk.inj (Option.some.inj hw)
    rfl
  | and x y =>
    obtain ⟨rfl, hv⟩ := Prod.mk.inj (Option.some.inj hw)
    exact absurd (BitVec.and_eq_allOnes_iff.mp hv).1 hpc
  | rs x y =>
    obtain ⟨_, hv⟩ := Prod.mk.inj (Option.some.inj hw)
    exact absurd hv (ofNat_half_ne_allOnes32 _)
  | ls x y =>
    obtain ⟨_, hv⟩ := Prod.mk.inj (Option.some.inj hw)
    exact absurd hv (ofNat_double_ne_allOnes32 _)
  | sa | rd | wr | sb | sf | sw | go | bin | biz => cases hw

/-- The PC after an update that overflows in mode `fault`: `0xFFFFFFFF`, as it was (40 R145). -/
theorem pc_afterOf_of_overflow {i : Instr} {s : State} (htaken : takenOf i s = false)
    (hp : pcAfterEffect i s = allOnes32) (hmode : s.cfg.pcOverflowMode = .fault) :
    (afterOf i s).pc = allOnes32 := by
  have hpc : (effectOf i s).pc = allOnes32 := by rw [effectOf_pc htaken, hp]
  simp [afterOf, htaken, State.updateNext_of_eq _ _ hpc, effectOf_cfg, hmode, hpc]

/-- What an instruction of a READY machine leaves in the fault latch is justified (60 R232). -/
theorem faultJustified_afterOf {i : Instr} {s : State} {w : IWord} (hf : s.fault = none)
    (hfits : programFits s.imem.length = true) (hw : s.fetch = some w) (hd : decode w = .instr i) :
    (afterOf i s).faultJustified := by
  obtain ⟨himem, hcfg, _⟩ := afterOf_sameFixed i s
  have hfault := afterOf_fault i s
  unfold State.faultJustified
  split_ifs at hfault with hover
  · obtain ⟨htaken, hp, hmode⟩ := hover
    rw [hfault, hcfg, himem]
    exact ⟨hmode, pc_afterOf_of_overflow htaken hp hmode, w, i, hw, hd,
      mayOverflowPc_of_pcAfterEffect (pc_ne_of_fetch hfits hw) hp⟩
  · rw [hfault, hf]
    trivial

/-- An instruction of a READY machine keeps the invariant. -/
theorem inv_afterOf {i : Instr} {s : State} {w : IWord} (h : s.Inv) (hf : s.fault = none)
    (hw : s.fetch = some w) (hd : decode w = .instr i) : (afterOf i s).Inv where
  memCanonical := memCanonical_afterOf i h.memCanonical
  storeFits := by rw [(afterOf_sameFixed i s).1]; exact h.storeFits
  constRegs := constRegsHeld_afterOf i h.constRegs
  flags := flagsExclusive_afterOf i h.flags
  faults := faultJustified_afterOf hf h.storeFits hw hd

/-- The fetch of an illegal word keeps the invariant: only the latch changes, and it names the word (30 R76). -/
theorem inv_takeIllegal {s : State} {w : IWord} (h : s.Inv) (hw : s.fetch = some w) (hl : legal w = false) :
    s.takeIllegal.Inv where
  memCanonical := h.memCanonical
  storeFits := h.storeFits
  constRegs := h.constRegs
  flags := h.flags
  faults := ⟨rfl, w, hw, hl⟩

/-- Settles O47: a step fetches an illegal word or carries out an instruction, and each keeps the invariant. -/
theorem stepKeepsInvariant : Obligations.StepKeepsInvariant := by
  unfold Obligations.StepKeepsInvariant
  intro s t h hstep
  obtain ⟨hf, w, hw, ⟨hl, rfl⟩ | ⟨i, hd, rfl⟩⟩ := step_next hstep
  · exact inv_takeIllegal h hw hl
  · exact inv_afterOf h hf hw hd

/-- Settles O31: the write of registers 5, 6 and 7 is `WritesRegister` with the stored value of each setting. -/
theorem constRegWrites : Obligations.ConstRegWrites := by
  unfold Obligations.ConstRegWrites
  intro i s x v hw hx
  obtain ⟨t, hexec, hval, hregs, hpc, hflags, hlatches, hmem, hfixed⟩ := writesRegister_of_registerWrite hw
  have hx0 : x ≠ 0 := by rintro rfl; revert hx; decide
  refine ⟨t, hexec, ?_, ?_, by simpa [hx0] using hpc, hregs, hflags, hlatches, hmem, hfixed⟩
  · intro hc
    simpa [stored, hc] using hval hx0
  · intro hc
    refine ⟨by simpa [stored, hc, hx] using hval hx0, fun hheld => ?_⟩
    rw [exec_next hexec]
    exact constRegsHeld_afterOf i hheld

/-- Settles O32, by the frame of the one register write an instruction makes. -/
theorem registerFrame : Obligations.RegisterFrame := by
  unfold Obligations.RegisterFrame
  intro i s t r hexec hr hw
  rw [exec_next hexec]
  exact readReg_afterOf_of_not_written hr hw

/-! ### With other flags -/

/-- A register write and a change of the flags commute. -/
theorem writeReg_setFlags (s : State) (r : Reg) (v : Word) (a b : Bool) :
    (s.setFlags a b).writeReg r v = (s.writeReg r v).setFlags a b := by
  cases h : s.cfg.constRegsHardwired && isConstReg r <;>
    simp only [State.writeReg, State.setFlags_cfg, h] <;> rfl

/-- The PC update and a change of the flags commute. -/
theorem updateNext_setFlags (s : State) (k : Word) (a b : Bool) :
    (s.setFlags a b).updateNext k = (s.updateNext k).setFlags a b := by
  by_cases h : s.pc = allOnes32
  · rw [s.updateNext_of_eq k h, (s.setFlags a b).updateNext_of_eq k h, State.setFlags_cfg]
    cases s.cfg.pcOverflowMode <;> rfl
  · rw [s.updateNext_of_ne k h, (s.setFlags a b).updateNext_of_ne k h]
    rfl

/-- With other flags, under which a jump is taken or not as before, the effect of an instruction other than SF
is the same. -/
theorem effectOf_setFlags {i : Instr} {s : State} {a b : Bool} (hsf : ∀ x, i ≠ .sf x)
    (htaken : takenOf i (s.setFlags a b) = takenOf i s) :
    effectOf i (s.setFlags a b) = (effectOf i s).setFlags a b := by
  cases i with
  | sf x => exact absurd rfl (hsf x)
  | bin | biz =>
    simp only [takenOf, State.setFlags_n, State.setFlags_z] at htaken
    simp only [effectOf, State.setFlags_n, State.setFlags_z, htaken]
    split <;> rfl
  | rb | add | and | mv | not | rs | ls => exact writeReg_setFlags s _ _ a b
  | sa | rd | wr | sb | go | sw => rfl

/-- With other flags, under which a jump is taken or not as before, an instruction other than SF does the same. -/
theorem afterOf_setFlags {i : Instr} {s : State} {a b : Bool} (hsf : ∀ x, i ≠ .sf x)
    (htaken : takenOf i (s.setFlags a b) = takenOf i s) :
    afterOf i (s.setFlags a b) = (afterOf i s).setFlags a b := by
  simp only [afterOf, htaken, effectOf_setFlags hsf htaken]
  split
  · rfl
  · exact updateNext_setFlags _ _ a b

/-- Only BIN and BIZ test a flag. -/
theorem takenOf_setFlags {i : Instr} (s : State) (a b : Bool) (hbin : ∀ j, i ≠ .bin j)
    (hbiz : ∀ j, i ≠ .biz j) : takenOf i (s.setFlags a b) = takenOf i s := by
  cases i with
  | bin j => exact absurd rfl (hbin j)
  | biz j => exact absurd rfl (hbiz j)
  | _ => rfl

/-- Settles O33: SF sets both flags whatever they were, and under `takenOf` alone do they reach another
instruction. -/
theorem flagsMutatedOnlyBySf : Obligations.FlagsMutatedOnlyBySf := by
  unfold Obligations.FlagsMutatedOnlyBySf
  intro i s t hexec
  obtain rfl := exec_next hexec
  simp only [exec_eq]
  refine ⟨sameFlags_afterOf s, ?_, ?_, ?_, ?_, rfl⟩
  · rintro x rfl
    obtain ⟨hn, hz⟩ := flags_afterOf_sf x s
    rw [hn, hz]
    exact ⟨zeroFlag_iff _, negativeFlag_iff _, fun a b => rfl⟩
  · intro hsf hbin hbiz a b
    rw [afterOf_setFlags hsf (takenOf_setFlags s a b hbin hbiz)]
  · rintro j rfl b
    exact congrArg _ (afterOf_setFlags nofun rfl)
  · rintro j rfl a
    exact congrArg _ (afterOf_setFlags nofun rfl)

/-! ### The instruction store -/

theorem imem_step {s t : State} (h : step s = .next t) : t.imem = s.imem := (step_sameFixed h).1

/-- The host's step keeps the store, whether it steps or not (40 R147, R148). -/
theorem imem_hostStep (s : State) : (hostStep s).2.imem = s.imem := by
  cases h : step s with
  | next t => rw [hostStep_state h]; exact imem_step h
  | fault f => cases f <;> simp [hostStep, h]
  | refused r => simp [hostStep, h]

theorem imem_requestStopIf (b : Bool) (s : State) : (requestStopIf b s).imem = s.imem := by
  cases b <;> rfl

/-- The loop of `run` keeps the store, by induction over its rounds (40 R149). -/
theorem imem_runLoop {reqs : List Bool} {s t : State} {r : RunResult}
    (h : runLoop reqs s = some (r, t)) : t.imem = s.imem := by
  induction reqs generalizing s with
  | nil => cases h
  | cons q qs ih =>
    obtain ⟨_, rfl⟩ | ⟨u, _, hstep, hrest⟩ := runLoop_cons h
    · exact imem_requestStopIf q s
    · rw [ih hrest, State.countStep_imem, imem_step hstep, imem_requestStopIf]

/-- The loop of the debugger's continue keeps the store, by induction over its rounds (60 R242). -/
theorem imem_continueLoop {breaks : List Word} {reqs : List Bool} {p : StepResult × State} {r : StepResult}
    {t : State} (h : continueLoop breaks reqs p = some (r, t)) : t.imem = p.2.imem := by
  induction reqs generalizing p with
  | nil => cases h
  | cons q qs ih =>
    obtain ⟨r', s⟩ := p
    simp only [continueLoop] at h
    split at h
    · rw [ih h, imem_hostStep, imem_requestStopIf]
    · cases h
      exact imem_requestStopIf q s

/-- `construct` answers the state of the reset sequence (70 R260). -/
theorem eq_constructed_of_construct {cfg : Config} {regInits : List (Reg × Word)}
    {memInits : List (Word × Word)} {image : List IWord} {t : State}
    (h : construct cfg regInits memInits image = .next t) : t = constructed cfg regInits memInits image := by
  unfold construct at h
  split at h
  · cases h; rfl
  · cases h

/-- Settles O39: `construct` loads the image, and each transaction keeps the store. -/
theorem storeNeverChanges : Obligations.StoreNeverChanges := by
  unfold Obligations.StoreNeverChanges
  refine ⟨?_, fun s t => imem_step, fun s => ⟨imem_hostStep s, rfl⟩, ?_, ?_⟩
  · intro cfg regInits memInits image t h
    obtain rfl := eq_constructed_of_construct h
    exact ⟨rfl, rfl⟩
  · intro limit reqs s r t h
    exact imem_runLoop (s := s.beginRun limit) h
  · intro breaks reqs s r t h
    rw [imem_continueLoop h, imem_hostStep]

/-! ### The status word (10 R37) -/

theorem status_state (s : State) : s.status.extractLsb' 0 2 = s.runState.code :=
  BitVec.extractLsb'_append_eq_right

theorem status_bits_3_2 (s : State) : s.status.extractLsb' 2 2 = 0#2 :=
  (BitVec.extractLsb'_append_eq_of_le (by decide)).trans BitVec.extractLsb'_append_eq_right

theorem status_cause (s : State) : s.status.extractLsb' 4 4 = s.causeCode :=
  (BitVec.extractLsb'_append_eq_of_le (by decide)).trans <|
    (BitVec.extractLsb'_append_eq_of_le (by decide)).trans BitVec.extractLsb'_append_eq_right

theorem status_bits_31_8 (s : State) : s.status.extractLsb' 8 24 = 0#24 :=
  (BitVec.extractLsb'_append_eq_of_le (by decide)).trans <|
    (BitVec.extractLsb'_append_eq_of_le (by decide)).trans BitVec.extractLsb'_append_eq_left

theorem runState_code_ne_three (r : RunState) : r.code ≠ 3#2 := by
  cases r <;> decide

theorem runState_of_halted {s : State} (hf : s.fault = none) (hp : s.imem.length ≤ s.pc.toNat) :
    s.runState = .halted := by
  simp [State.runState, hf, State.nInstr, Nat.not_lt.mpr hp]

theorem runState_of_fault {s : State} {p : Cause × Word} (hf : s.fault = some p) : s.runState = .faulted := by
  simp [State.runState, hf]

/-- Settles O44, field by field of the word. -/
theorem statusWord : Obligations.StatusWord := by
  unfold Obligations.StatusWord
  intro s
  rw [status_state, status_bits_3_2, status_cause, status_bits_31_8]
  refine ⟨?_, ?_, ?_, runState_code_ne_three _, rfl, rfl, rfl, ?_, ?_, ?_⟩
  · intro hf hp
    have hr := (runState_ready_iff s).mpr ⟨hf, hp⟩
    exact ⟨hr, by rw [hr]; rfl⟩
  · intro hf hp
    have hr := runState_of_halted hf hp
    exact ⟨hr, by rw [hr]; rfl⟩
  · intro c k hf
    have hr := runState_of_fault hf
    exact ⟨hr, by rw [hr]; rfl⟩
  · intro hf
    simp [State.causeCode, State.faultIdx, hf]
  · intro k hf
    simp [State.causeCode, State.faultIdx, Cause.code, hf]
  · intro k hf
    simp [State.causeCode, State.faultIdx, Cause.code, hf]

end Sys2Proof.Machine
end

section
/-! Proofs of the statements about the memories (20): reads after writes, the canonical form, which word an
instruction may change, and the instruction store, which none reads. -/

namespace Sys2Proof.Machine

/-! ### Reads of a list of words (20 R51) -/

@[simp] theorem Memory.read_cons_same (a : Nat) (v : Word) (m : Memory) : Memory.read ((a, v) :: m) a = v := by
  simp [Memory.read]

theorem Memory.read_cons_ne {a b : Nat} (v : Word) (m : Memory) (h : b ≠ a) :
    Memory.read ((b, v) :: m) a = Memory.read m a := by
  simp [Memory.read, h]

/-- An address that no entry names reads as unlisted (20 R51). -/
theorem Memory.read_of_forall_ne {m : Memory} {a : Nat} (h : ∀ p ∈ m, p.1 ≠ a) :
    Memory.read m a = Memory.unlisted := by
  induction m with
  | nil => rfl
  | cons p m ih =>
    obtain ⟨hp, hm⟩ := List.forall_mem_cons.mp h
    rw [Memory.read_cons_ne p.2 m hp]
    exact ih hm

/-- Settles O36, by the laws of a read after a write and of an address without an entry. -/
theorem memoryReadsLastWrite : Obligations.MemoryReadsLastWrite := by
  unfold Obligations.MemoryReadsLastWrite
  refine ⟨fun s a v hwf => s.readMem_writeMem_same a v hwf, fun s a b v hb => s.readMem_writeMem_ne v hb, ?_⟩
  intro s a hnone
  exact Memory.read_of_forall_ne hnone

/-! ### The canonical form holds one list for one memory (log entry 1) -/

theorem Memory.wfFrom_cons_iff {lo a : Nat} {v : Word} {m : Memory} :
    Memory.wfFrom lo ((a, v) :: m) = true ↔
      lo ≤ a ∧ a < 2 ^ 32 ∧ v ≠ Memory.unlisted ∧ Memory.wfFrom (a + 1) m = true := by
  simp [Memory.wfFrom, and_assoc]

/-- Two canonical memories that each begin with an entry and read alike begin at the same address: the first
entry of each reads as listed, so the other does not begin above it. -/
theorem Memory.head_le_of_read_eq {lo a b : Nat} {u v : Word} {l m : Memory}
    (hl : Memory.wfFrom lo ((a, u) :: l) = true) (hm : Memory.wfFrom lo ((b, v) :: m) = true)
    (hread : Memory.read ((a, u) :: l) a = Memory.read ((b, v) :: m) a) : b ≤ a := by
  obtain ⟨_, _, hu, _⟩ := Memory.wfFrom_cons_iff.mp hl
  obtain ⟨_, hb, hv, hrest⟩ := Memory.wfFrom_cons_iff.mp hm
  by_contra hlt
  have hfrom : Memory.wfFrom b ((b, v) :: m) = true := Memory.wfFrom_cons_iff.mpr ⟨le_rfl, hb, hv, hrest⟩
  rw [Memory.read_cons_same, Memory.read_below hfrom (not_le.mp hlt)] at hread
  exact hu hread

/-- A canonical memory that reads as unlisted at every address is empty. -/
theorem Memory.eq_nil_of_read_unlisted {lo : Nat} {m : Memory} (hm : Memory.wfFrom lo m = true)
    (hread : ∀ a < 2 ^ 32, Memory.read m a = Memory.unlisted) : m = [] := by
  cases m with
  | nil => rfl
  | cons p m =>
    obtain ⟨_, hb, hv, _⟩ := Memory.wfFrom_cons_iff.mp hm
    exact absurd ((Memory.read_cons_same _ _ _).symm.trans (hread p.1 hb)) hv

/-- What follows the common first address of two canonical memories that read alike reads alike. -/
theorem Memory.tail_read_eq {a c : Nat} {u v : Word} {l m : Memory} (hl : Memory.wfFrom (a + 1) l = true)
    (hm : Memory.wfFrom (a + 1) m = true)
    (hread : Memory.read ((a, u) :: l) c = Memory.read ((a, v) :: m) c) :
    Memory.read l c = Memory.read m c := by
  by_cases hac : a = c
  · subst hac
    rw [Memory.read_below hl (Nat.lt_succ_self a), Memory.read_below hm (Nat.lt_succ_self a)]
  · rwa [Memory.read_cons_ne u l hac, Memory.read_cons_ne v m hac] at hread

/-- Canonical memories from `lo` on that read alike are equal, by induction over both lists. -/
theorem Memory.eq_of_read_eq {lo : Nat} {l m : Memory} (hl : Memory.wfFrom lo l = true)
    (hm : Memory.wfFrom lo m = true) (hread : ∀ a < 2 ^ 32, Memory.read l a = Memory.read m a) : l = m := by
  induction l generalizing lo m with
  | nil => exact (Memory.eq_nil_of_read_unlisted hm fun a ha => (hread a ha).symm).symm
  | cons p l ih =>
    obtain ⟨a, u⟩ := p
    cases m with
    | nil => exact Memory.eq_nil_of_read_unlisted hl hread
    | cons q m =>
      obtain ⟨b, v⟩ := q
      obtain ⟨_, ha, _, hl'⟩ := Memory.wfFrom_cons_iff.mp hl
      obtain ⟨_, hb, _, hm'⟩ := Memory.wfFrom_cons_iff.mp hm
      obtain rfl : a = b := le_antisymm (Memory.head_le_of_read_eq hm hl (hread b hb).symm)
        (Memory.head_le_of_read_eq hl hm (hread a ha))
      obtain rfl : u = v := by simpa using hread a ha
      rw [ih hl' hm' fun c hc => Memory.tail_read_eq hl' hm' (hread c hc)]

/-- Settles O38: every address below `2^32` is a 32-bit word. -/
theorem canonicalMemoryUnique : Obligations.CanonicalMemoryUnique := by
  unfold Obligations.CanonicalMemoryUnique
  intro l m hl hm hread
  exact Memory.eq_of_read_eq hl hm fun a ha => hread (BitVec.ofNatLT a ha)

/-! ### What an instruction stores (20 R56) -/

/-- An instruction that stores nothing leaves the data memory. -/
theorem mem_afterOf_of_storeAddress_none {i : Instr} {s : State} (h : storeAddress i s = none) :
    (afterOf i s).mem = s.mem := by
  rw [mem_afterOf]
  cases i with
  | wr | sw => cases h
  | bin | biz => simp only [effectOf]; split <;> rfl
  | _ => simp [effectOf]

/-- An instruction that stores makes one write, at its store address (41 R176, R180). -/
theorem mem_afterOf_of_storeAddress_some {i : Instr} {s : State} {a : Word} (h : storeAddress i s = some a) :
    ∃ v, (afterOf i s).mem = Memory.write s.mem a.toNat v := by
  rw [mem_afterOf]
  cases i with
  | wr => cases h; exact ⟨s.mbr, rfl⟩
  | sw x y => cases h; exact ⟨s.readReg y, rfl⟩
  | sa | rb | rd | sb | sf | go | bin | biz | add | and | mv | not | rs | ls => cases h

/-- Settles O35: no write, or one at the store address. -/
theorem memoryFrame : Obligations.MemoryFrame := by
  unfold Obligations.MemoryFrame
  intro i s t hexec
  obtain rfl := exec_next hexec
  constructor
  · intro hnone a
    simp only [State.readMem, mem_afterOf_of_storeAddress_none hnone]
  · intro a hsome b hb
    obtain ⟨v, hmem⟩ := mem_afterOf_of_storeAddress_some hsome
    calc (afterOf i s).readMem b = (s.writeMem a v).readMem b := by
          simp only [State.readMem, hmem, State.writeMem_mem]
      _ = s.readMem b := s.readMem_writeMem_ne v hb

/-! ### WR and then RD (20 R52) -/

theorem storeAddress_eq_none {i : Instr} (s : State) (hwr : i ≠ .wr) (hsw : ∀ x y, i ≠ .sw x y) :
    storeAddress i s = none := by
  cases i with
  | wr => exact absurd rfl hwr
  | sw x y => exact absurd rfl (hsw x y)
  | _ => rfl

/-- Instructions other than WR and SW, one after the other, leave the data memory. -/
theorem mem_execAll {is : List Instr} {s t : State} (his : ∀ i ∈ is, i ≠ .wr ∧ ∀ x y, i ≠ .sw x y)
    (h : execAll is s = .next t) : t.mem = s.mem := by
  induction is generalizing s with
  | nil => cases h; rfl
  | cons i is ih =>
    obtain ⟨⟨hwr, hsw⟩, hrest⟩ := List.forall_mem_cons.mp his
    rw [execAll_cons] at h
    rw [ih hrest h, mem_afterOf_of_storeAddress_none (storeAddress_eq_none s hwr hsw)]

/-- RD loads MBR with the word at MAR (41 R174). -/
theorem mbr_afterOf_rd (s : State) : (afterOf .rd s).mbr = s.readMem s.mar := by
  simp [afterOf, takenOf, effectOf]

/-- Settles O37: at the RD the memory is the one WR left, and it holds the old MBR at MAR. -/
theorem wrThenRd : Obligations.WrThenRd := by
  unfold Obligations.WrThenRd
  intro s t u is hwf hwr his hexec hmar
  obtain rfl := exec_next hwr
  have hmem : u.mem = (s.writeMem s.mar s.mbr).mem := (mem_execAll his hexec).trans (mem_afterOf .wr s)
  refine ⟨_, exec_eq .rd u, ?_⟩
  calc (afterOf .rd u).mbr = u.readMem s.mar := by rw [mbr_afterOf_rd, hmar]
    _ = (s.writeMem s.mar s.mbr).readMem s.mar := congrArg (Memory.read · s.mar.toNat) hmem
    _ = s.mbr := s.readMem_writeMem_same s.mar s.mbr hwf

/-! ### With another instruction store (20 R53) -/

/-- A register write and a change of the store commute. -/
theorem writeReg_withStore (s : State) (l : List IWord) (r : Reg) (v : Word) :
    State.writeReg { s with imem := l } r v = { s.writeReg r v with imem := l } := by
  cases h : s.cfg.constRegsHardwired && isConstReg r <;> simp only [State.writeReg, h] <;> rfl

/-- The PC update and a change of the store commute. -/
theorem updateNext_withStore (s : State) (l : List IWord) (k : Word) :
    State.updateNext { s with imem := l } k = { s.updateNext k with imem := l } := by
  by_cases h : s.pc = allOnes32
  · rw [s.updateNext_of_eq k h, State.updateNext_of_eq { s with imem := l } k h]
    cases s.cfg.pcOverflowMode <;> rfl
  · rw [s.updateNext_of_ne k h, State.updateNext_of_ne { s with imem := l } k h]
    rfl

/-- With another store the effect of an instruction is the same. -/
theorem effectOf_withStore (i : Instr) (s : State) (l : List IWord) :
    effectOf i { s with imem := l } = { effectOf i s with imem := l } := by
  cases i with
  | bin | biz => simp only [effectOf]; split <;> rfl
  | rb | add | and | mv | not | rs | ls => exact writeReg_withStore s l _ _
  | sa | rd | wr | sb | sf | go | sw => rfl

/-- The jumps test flags only, so another store takes the same ones. -/
theorem takenOf_withStore (i : Instr) (s : State) (l : List IWord) :
    takenOf i { s with imem := l } = takenOf i s := by
  cases i <;> rfl

/-- With another store an instruction does the same. -/
theorem afterOf_withStore (i : Instr) (s : State) (l : List IWord) :
    afterOf i { s with imem := l } = { afterOf i s with imem := l } := by
  simp only [afterOf, takenOf_withStore, effectOf_withStore]
  split
  · rfl
  · exact updateNext_withStore (effectOf i s) l s.pc

/-- Settles O40: effect, jump and PC update each commute with a change of the store. -/
theorem storeUnreadByInstructions : Obligations.StoreUnreadByInstructions := by
  unfold Obligations.StoreUnreadByInstructions
  intro i s t l hexec
  obtain rfl := exec_next hexec
  rw [exec_eq, afterOf_withStore]

end Sys2Proof.Machine
end

section
/-! Proofs of the statements about the encoding (30 part A): decode and encode, the opcode map, the legal words, and
the step on an illegal word. -/

namespace Sys2Proof.Machine

open Sys2Proof.Laws

/-! ### Decode and encode -/

/-- The encoder writes zeros in every must-be-zero bit (30 R75, R116). -/
theorem legal_encode (i : Instr) : legal (encode i) = true := by
  cases i with
  | rd | wr => exact legal_encodeN _ rfl
  | sa x | rb x | sb x | sf x => exact legal_encodeR1 _ x rfl
  | go t | bin t | biz t => exact legal_encodeJ _ t rfl
  | add x y | and x y | mv x y | not x y | rs x y | ls x y | sw x y => exact legal_encodeR2 _ x y rfl

/-- The row's instruction, read from an instruction's own word, is that instruction (30 R73, R78). -/
theorem instrOfOp_encode (i : Instr) : instrOfOp (encode i) = i := by
  cases i with
  | rd | wr => simp [encode, encodeN, instrOfOp]
  | sa | rb | sb | sf => simp [encode, encodeR1, instrOfOp, operandX]
  | go | bin | biz => simp [encode, encodeJ, instrOfOp]
  | add | and | mv | not | rs | ls | sw => simp [encode, encodeR2, instrOfOp, operandX, operandY, ryField]

theorem decode_of_legal {w : IWord} (h : legal w = true) : decode w = .instr (instrOfOp w) := by
  simp [decode, h]

theorem decode_of_not_legal {w : IWord} (h : legal w = false) :
    decode w = .illegal (formatOfOp (opField w)) := by
  simp [decode, h]

theorem decode_encode (i : Instr) : decode (encode i) = .instr i := by
  rw [decode_of_legal (legal_encode i), instrOfOp_encode]

/-- The word with the `OP` and the operands of `w`, laid out in a format: zeros in every must-be-zero bit
(30 R72). -/
def reencodeAs (w : IWord) : Format → IWord
  | .n => encodeN (opField w)
  | .r1 => encodeR1 (opField w) (operandX w)
  | .j => encodeJ (opField w) (opdField w)
  | .r2 => encodeR2 (opField w) (operandX w) (operandY w)

/-- The row's instruction encodes to its word's `OP` and operands, in the format of that `OP`: one opcode value after
the other (30 R73). -/
theorem encode_instrOfOp (w : IWord) : encode (instrOfOp w) = reencodeAs w (formatOfOp (opField w)) := by
  unfold instrOfOp reencodeAs
  generalize opField w = op
  obtain ⟨⟨k, hk⟩⟩ := op
  interval_cases k <;> rfl

/-- Where the must-be-zero bits are zero, `OP` and the operands are the whole word (30 R71, R72). -/
theorem reencodeAs_of_mustBeZeroOk {w : IWord} {f : Format} (h : mustBeZeroOk f w = true) :
    reencodeAs w f = w := by
  conv_rhs => rw [← layout_fields w]
  cases f with
  | n =>
    obtain ⟨hx, hopd⟩ : rxField w = 0#4 ∧ opdField w = 0#32 := by simpa [mustBeZeroOk] using h
    rw [hx, hopd]
    rfl
  | r1 =>
    have hopd : opdField w = 0#32 := by simpa [mustBeZeroOk] using h
    simp [reencodeAs, encodeR1, operandX, hopd]
  | j =>
    have hx : rxField w = 0#4 := by simpa [mustBeZeroOk] using h
    rw [hx]
    rfl
  | r2 =>
    have hhigh : opdHighField w = 0#28 := by simpa [mustBeZeroOk] using h
    have hopd : opdOfY (operandY w) = opdField w := by
      rw [← opd_fields w, hhigh, opdOfY, operandY, fieldOfReg_regOfField]
    simp [reencodeAs, encodeR2, operandX, hopd]

theorem encode_instrOfOp_of_legal {w : IWord} (h : legal w = true) : encode (instrOfOp w) = w := by
  rw [encode_instrOfOp, reencodeAs_of_mustBeZeroOk h]

/-- Settles O2: a legal word is the encoding of its row's instruction, since its must-be-zero bits are zero. -/
theorem decodeEncodeInverse : Obligations.DecodeEncodeInverse := by
  unfold Obligations.DecodeEncodeInverse
  exact ⟨fun i => ⟨legal_encode i, decode_encode i⟩,
    fun w h => ⟨instrOfOp w, decode_of_legal h, encode_instrOfOp_of_legal h⟩⟩

/-- Settles O1: the four words are the encodings of their instructions. -/
theorem exampleWordsDecode : Obligations.ExampleWordsDecode := by
  unfold Obligations.ExampleWordsDecode
  exact ⟨decode_encode (.add 1 2), decode_encode (.sw 10 3), decode_encode (.go 0xFFFFFFFF#32),
    decode_encode (.biz 4#32)⟩

/-! ### The opcode map -/

/-- A word decodes to an instruction exactly when it is legal, and to the one of its `OP`. -/
theorem decode_eq_instr_iff {w : IWord} {i : Instr} :
    decode w = .instr i ↔ legal w = true ∧ instrOfOp w = i := by
  unfold decode
  split_ifs with h <;> simp [h]

/-- The row of a word's `OP` holds an instruction of that `OP` (30 R73). -/
theorem opNumber_instrOfOp (w : IWord) : opNumber (instrOfOp w) = (opField w).toNat := by
  unfold instrOfOp
  generalize opField w = op
  obtain ⟨⟨k, hk⟩⟩ := op
  interval_cases k <;> rfl

/-- The mask of a format: `OP`, and its must-be-zero bits (30 R73). -/
def formatMask : Format → IWord
  | .n => layout 0xF#4 0xF#4 0xFFFFFFFF#32
  | .r1 => layout 0xF#4 0x0#4 0xFFFFFFFF#32
  | .j => layout 0xF#4 0xF#4 0x00000000#32
  | .r2 => layout 0xF#4 0x0#4 0xFFFFFFF0#32

/-- The opcode map has one row for each opcode value: the mask of its format, and the `OP` with zeros below. -/
theorem opcodeRows_toNat (op : BitVec 4) :
    opcodeRows[op.toNat]? = some (formatMask (formatOfOp op), layout op 0#4 0#32) := by
  revert op
  decide

/-- The mask `0xFFFFFFF0` tests `OPD[31:4]` (30 R71). -/
theorem opdField_and_high_eq_zero_iff (w : IWord) :
    opdField w &&& 0xFFFFFFF0#32 = 0#32 ↔ opdHighField w = 0#28 := by
  have hand : opdField w &&& 0xFFFFFFF0#32 = (opdHighField w &&& BitVec.allOnes 28) ++ (ryField w &&& 0#4) := by
    rw [← opd_fields w]
    exact BitVec.and_append (x₂ := BitVec.allOnes 28) (y₂ := 0#4)
  rw [hand, BitVec.and_allOnes, BitVec.and_zero]
  constructor
  · intro h
    have hhigh := congrArg (BitVec.extractLsb' 4 28) h
    rw [BitVec.extractLsb'_append_eq_ite] at hhigh
    simpa using hhigh
  · intro h
    rw [h]
    rfl

/-- A word under its format's mask is a given `OP` with zeros below exactly when it has that `OP` and its must-be-zero
bits are zero (30 R73, R75). -/
theorem and_formatMask_eq_iff (w : IWord) (op : BitVec 4) (f : Format) :
    w &&& formatMask f = layout op 0#4 0#32 ↔ opField w = op ∧ mustBeZeroOk f w = true := by
  have all4 (b : BitVec 4) : b &&& 15#4 = b := BitVec.and_allOnes
  have all32 (b : Word) : b &&& 4294967295#32 = b := BitVec.and_allOnes
  cases f <;> simp [formatMask, and_layout, layout_inj, mustBeZeroOk, all4, all32,
    opdField_and_high_eq_zero_iff]

/-- A word fits the row of its `OP` when it is legal, and no other row (30 R73, R75). -/
theorem fitsRow_iff {k : Nat} {w : IWord} : fitsRow k w ↔ legal w = true ∧ (opField w).toNat = k := by
  constructor
  · rintro ⟨p, hp, hw⟩
    have hk : k < 16 := (List.getElem?_eq_some_iff.mp hp).1
    obtain ⟨op, rfl⟩ : ∃ op : BitVec 4, op.toNat = k := ⟨BitVec.ofNat 4 k, by simpa using hk⟩
    obtain rfl := Option.some.inj ((opcodeRows_toNat op).symm.trans hp)
    obtain ⟨rfl, hzero⟩ := (and_formatMask_eq_iff w op _).mp hw
    exact ⟨hzero, rfl⟩
  · rintro ⟨hl, rfl⟩
    exact ⟨_, opcodeRows_toNat _, (and_formatMask_eq_iff w _ _).mpr ⟨rfl, hl⟩⟩

/-- Settles O3: to fit row `k` is to be legal with `OP` `k`, and to decode to an instruction of that `OP` is the
same. -/
theorem opcodeMapRows : Obligations.OpcodeMapRows := by
  unfold Obligations.OpcodeMapRows
  refine ⟨fun w k => ?_, fun w j k hj hk => ?_⟩
  · rw [fitsRow_iff, ← opNumber_instrOfOp]
    simp only [decode_eq_instr_iff, and_assoc, exists_and_left, exists_eq_left']
  · exact (fitsRow_iff.mp hj).2.symm.trans (fitsRow_iff.mp hk).2

/-! ### Legal words -/

/-- The bits that a format requires to be zero, in arithmetic on the number `n` of a word (30 R75). -/
def zeroBits (n : Nat) : Format → Prop
  | .n => n % 2 ^ 36 = 0
  | .r1 => n % 2 ^ 32 = 0
  | .j => n / 2 ^ 32 % 16 = 0
  | .r2 => n / 16 % 2 ^ 28 = 0

theorem mustBeZeroOk_iff_zeroBits (f : Format) (w : IWord) :
    mustBeZeroOk f w = true ↔ zeroBits w.toNat f := by
  cases f with
  | n =>
    simp [mustBeZeroOk, zeroBits, ← BitVec.toNat_inj, rxField_toNat, opdField_toNat]
    omega
  | r1 => simp [mustBeZeroOk, zeroBits, ← BitVec.toNat_inj, opdField_toNat]
  | j => simp [mustBeZeroOk, zeroBits, ← BitVec.toNat_inj, rxField_toNat]
  | r2 => simp [mustBeZeroOk, zeroBits, ← BitVec.toNat_inj, opdHighField_toNat]

/-- `legal(w)` in arithmetic: one opcode value after the other (30 R75). -/
theorem legal_iff_zeroBits (w : IWord) :
    legal w = true ↔ zeroBits w.toNat (formatOfOp (opField w)) := mustBeZeroOk_iff_zeroBits _ w

/-- Settles O4: the formula names the format of each opcode value, and a legal word fits the row of its `OP`. -/
theorem legalWords : Obligations.LegalWords := by
  unfold Obligations.LegalWords
  refine ⟨fun w => ?_, fun w => by simp [fitsRow_iff]⟩
  rw [legal_iff_zeroBits]
  dsimp only
  rw [← opField_toNat]
  generalize opField w = op
  obtain ⟨⟨k, hk⟩⟩ := op
  interval_cases k <;> simp [formatOfOp, zeroBits]

/-! ### Illegal words -/

/-- An illegal word at `x[0]`, with no fault latched: the step takes the fault (30 R76, 40 R143). -/
theorem step_of_not_legal {s : State} {w : IWord} (hf : s.fault = none) (hw : s.fetch = some w)
    (hl : legal w = false) : step s = .next s.takeIllegal := by
  simp [step, hf, hw, decode_of_not_legal hl]

/-- A step that leaves a latched fault is a fault to the host (40 R147). -/
theorem hostStep_of_step_fault {s t : State} {c : Cause} {k : Word} (h : step s = .next t)
    (hf : t.fault = some (c, k)) : hostStep s = (.fault c, t) := by
  simp [hostStep, h, hf]

/-- Settles O7: a store image holds encodings, which are legal, and a step on an illegal word is `takeIllegal`. -/
theorem illegalWordFaults : Obligations.IllegalWordFaults := by
  unfold Obligations.IllegalWordFaults
  constructor
  · intro p w hw
    obtain ⟨i, _, rfl⟩ := List.mem_map.mp hw
    exact legal_encode i
  · intro s w hf hw hl
    have hstep := step_of_not_legal hf hw hl
    exact ⟨hstep, hostStep_of_step_fault hstep rfl⟩

end Sys2Proof.Machine
end

section
/-! Proofs of the statements about the assembler (30 part B): literals, the two passes, labels and diagnostics; and
the refusal of a program that is too long. -/

namespace Sys2Proof.Machine

/-! ### Literals (30 R91, R92) -/

/-- The digit of value `d.1`, in upper case where the flag is set. -/
def digitText (d : Nat × Bool) : Char :=
  if d.2 then (Nat.digitChar d.1).toUpper else Nat.digitChar d.1

theorem hexDigitValue_digitText : ∀ v < 16, ∀ b, hexDigitValue (digitText (v, b)) = some v := by decide

theorem digitValue_digitText {base : Nat} {d : Nat × Bool} (hbase : base ≤ 16) (hd : d.1 < base) :
    digitValue base (digitText d) = some d.1 := by
  simp [digitValue, hexDigitValue_digitText d.1 (by omega) d.2, hd]

/-- The value of a digit string, most significant digit first, read after the value `acc`. -/
def valueFrom (base acc : Nat) (ds : List (Nat × Bool)) : Nat :=
  ds.foldl (fun v d => v * base + d.1) acc

theorem digitsValue_digitText {base : Nat} {ds : List (Nat × Bool)} (hbase : base ≤ 16)
    (hds : ∀ d ∈ ds, d.1 < base) (acc : Nat) :
    digitsValue base acc (ds.map digitText) = some (valueFrom base acc ds) := by
  induction ds generalizing acc with
  | nil => rfl
  | cons d ds ih =>
    obtain ⟨hd, hds⟩ := List.forall_mem_cons.mp hds
    simp only [List.map_cons, digitsValue, digitValue_digitText hbase hd]
    exact ih hds _

theorem parseNat_digitText {base : Nat} {ds : List (Nat × Bool)} (hbase : base ≤ 16) (hne : ds ≠ [])
    (hds : ∀ d ∈ ds, d.1 < base) : parseNat base (ds.map digitText) = some (valueFrom base 0 ds) := by
  cases ds with
  | nil => exact absurd rfl hne
  | cons d ds => exact digitsValue_digitText hbase hds 0

theorem parseLiteral_hex (ds : Text) :
    parseLiteral ('0' :: 'x' :: ds) = (parseNat 16 ds).map (BitVec.ofNat 32) := rfl

theorem parseLiteral_binary (ds : Text) :
    parseLiteral ('0' :: 'b' :: ds) = (parseNat 2 ds).map (BitVec.ofNat 32) := rfl

theorem parseLiteral_plus (ds : Text) : parseLiteral ('+' :: ds) = (parseNat 10 ds).map (BitVec.ofNat 32) := rfl

theorem parseLiteral_minus (ds : Text) :
    parseLiteral ('-' :: ds) = (parseNat 10 ds).map (fun v => BitVec.ofInt 32 (-(v : Int))) := rfl

/-- A text of decimal digits only has no sign and no mark of another base, so it is read as decimal. -/
theorem parseLiteral_of_decimal {t : Text} (ht : ∀ c ∈ t, (digitValue 10 c).isSome) :
    parseLiteral t = (parseNat 10 t).map (BitVec.ofNat 32) := by
  unfold parseLiteral
  split
  · exact absurd (ht 'x' (by simp)) (by decide)
  · exact absurd (ht 'b' (by simp)) (by decide)
  · exact absurd (ht '-' (by simp)) (by decide)
  · exact absurd (ht '+' (by simp)) (by decide)
  · rfl

/-- A decimal digit string without a sign is read as decimal. -/
theorem parseLiteral_digitText {ds : List (Nat × Bool)} (hds : ∀ d ∈ ds, d.1 < 10) :
    parseLiteral (ds.map digitText) = (parseNat 10 (ds.map digitText)).map (BitVec.ofNat 32) := by
  apply parseLiteral_of_decimal
  intro c hc
  obtain ⟨d, hd, rfl⟩ := List.mem_map.mp hc
  simp [digitValue_digitText (by decide) (hds d hd)]

/-- Settles O54: the digits are read to their value, which the word holds modulo `2^32`. -/
theorem literalValues : Obligations.LiteralValues := by
  unfold Obligations.LiteralValues
  intro ds hne value digits
  have hnat {base : Nat} (hbase : base ≤ 16) (hds : ∀ d ∈ ds, d.1 < base) :
      parseNat base digits = some (value base) := parseNat_digitText hbase hne hds
  refine ⟨fun h10 => ⟨?_, ?_, ?_⟩, fun h16 => ?_, fun h2 => ?_⟩
  · have hdecimal : parseLiteral digits = (parseNat 10 digits).map _ := parseLiteral_digitText h10
    rw [hdecimal, hnat (by decide) h10]
    exact ⟨_, rfl, BitVec.toNat_ofNat _ _⟩
  · rw [parseLiteral_plus, hnat (by decide) h10]
    exact ⟨_, rfl, BitVec.toNat_ofNat _ _⟩
  · rw [parseLiteral_minus, hnat (by decide) h10]
    refine ⟨_, rfl, ?_⟩
    rw [BitVec.toNat_ofInt, Int.toNat_of_nonneg (Int.emod_nonneg _ (by decide))]
    rfl
  · rw [parseLiteral_hex, hnat (by decide) h16]
    exact ⟨_, rfl, BitVec.toNat_ofNat _ _⟩
  · rw [parseLiteral_binary, hnat (by decide) h2]
    exact ⟨_, rfl, BitVec.toNat_ofNat _ _⟩

/-! ### One line and one pass -/

/-- What every line that assembles keeps, the first pass keeps. -/
theorem firstPass_keeps {P : AsmState → Prop}
    (hline : ∀ line text st st', P st → processLine line text st = .ok st' → P st')
    {n : Nat} {lines : List Text} {st st' : AsmState} (hst : P st)
    (h : firstPass n lines st = .ok st') : P st' := by
  induction lines generalizing n st with
  | nil => cases h; exact hst
  | cons t ts ih =>
    unfold firstPass at h
    split at h
    · cases h
    · next st₁ h₁ => exact ih (hline _ _ _ _ hst h₁) h

/-- No line that assembles unbinds or rebinds a label (30 R106). -/
theorem lookup_processLine {name : Text} {v : Int} (line : Nat) (text : Text) (st st' : AsmState)
    (hv : st.labels.lookup name = some v) (h : processLine line text st = .ok st') :
    st'.labels.lookup name = some v := by
  cases processLine_does h with
  | noCode _ hlabels => rw [hlabels, hv]
  | oneInstr i hstate _ => rw [hstate, AsmState.append_labels, hv]
  | oneLabel new _ hlabels _ => rw [hlabels, List.lookup_append, hv, Option.some_or]

theorem assemble_of_firstPass_error {lines : List Text} {d : Diagnostic}
    (h : firstPass 1 lines AsmState.empty = .error d) : assemble lines = .error d := by
  simp [assemble, h]

theorem assemble_of_resolveAll_error {lines : List Text} {st : AsmState} {d : Diagnostic}
    (h : firstPass 1 lines AsmState.empty = .ok st) (hr : resolveAll st.labels st.code = .error d) :
    assemble lines = .error d := by
  simp [assemble, h, hr]

/-- The two ways an assembly fails (30 R109, R111). -/
theorem assemble_error {lines : List Text} {d : Diagnostic} (h : assemble lines = .error d) :
    firstPass 1 lines AsmState.empty = .error d ∨
      ∃ st, firstPass 1 lines AsmState.empty = .ok st ∧ resolveAll st.labels st.code = .error d := by
  unfold assemble at h
  split at h
  · next e he => cases h; exact .inl he
  · next st hst =>
    split at h
    · next e he => cases h; exact .inr ⟨st, hst, he⟩
    · cases h

/-- The resolution pass ends at the first placeholder that does not resolve (30 R111). -/
theorem resolveAll_append_error {labels : List (Text × Int)} {pre : List AsmInstr} {is : List Instr}
    {a : AsmInstr} {d : Diagnostic} (hpre : resolveAll labels pre = .ok is)
    (ha : resolveOne labels a = .error d) (post : List AsmInstr) :
    resolveAll labels (pre ++ a :: post) = .error d := by
  induction pre generalizing is with
  | nil => simp [resolveAll, ha]
  | cons b pre ih =>
    unfold resolveAll at hpre
    split at hpre
    · cases hpre
    · next i hi =>
      split at hpre
      · cases hpre
      · next js hjs => simp [resolveAll, hi, ih hjs]

/-- Settles O57: a failing first pass answers before the lines after it are read, and a failing placeholder before
those after it are. -/
theorem firstDiagnosticAborts : Obligations.FirstDiagnosticAborts := by
  unfold Obligations.FirstDiagnosticAborts
  constructor
  · intro pre post d h
    exact assemble_of_firstPass_error (by rw [firstPass_append, h])
  · intro lines st pre post a is d hst hcode hpre ha
    exact assemble_of_resolveAll_error hst (hcode ▸ resolveAll_append_error hpre ha post)

/-! ### Resolved programs (30 R110) -/

/-- What the first pass keeps: every label value is -1 or below the number of instructions so far, and every
complete instruction is well formed in any program (30 R103, R107). -/
structure AsmState.Resolvable (st : AsmState) : Prop where
  labelValues : ∀ p ∈ st.labels, -1 ≤ p.2 ∧ p.2 < st.code.length
  complete : ∀ j, .done j ∈ st.code → ∀ n, j.wellFormed n = true

theorem resolvable_empty : AsmState.empty.Resolvable where
  labelValues := by simp [AsmState.empty]
  complete := by simp [AsmState.empty]

theorem resolvable_processLine (line : Nat) (text : Text) (st st' : AsmState) (hst : st.Resolvable)
    (h : processLine line text st = .ok st') : st'.Resolvable := by
  obtain ⟨hvalues, hcomplete⟩ := hst
  cases processLine_does h with
  | noCode hcode hlabels => exact ⟨by rwa [hlabels, hcode], by rwa [hcode]⟩
  | oneInstr i hstate hshape =>
    subst hstate
    refine ⟨fun p hp => ?_, fun j hj => ?_⟩
    · obtain ⟨hlow, hhigh⟩ := hvalues p hp
      simp
      omega
    · rw [AsmState.append_code, List.mem_append, List.mem_singleton] at hj
      obtain hj | rfl := hj
      · exact hcomplete j hj
      · obtain ⟨j', hj', hwf⟩ | ⟨op, l, hjump⟩ := hshape
        · cases hj'; exact hwf
        · cases hjump
  | oneLabel name hcode hlabels _ =>
    refine ⟨fun p hp => ?_, by rwa [hcode]⟩
    rw [hlabels, List.mem_append, List.mem_singleton] at hp
    rw [hcode]
    obtain hp | rfl := hp
    · exact hvalues p hp
    · simp only [AsmState.labelValue]
      omega

theorem programFits_iff {n : Nat} : programFits n = true ↔ n ≤ 2 ^ 32 - 1 := decide_eq_true_iff

/-- -1 and an index below `n`, stored modulo `2^32`, are targets of a program of `n` instructions (30 R110, R116). -/
theorem targetInRange_ofInt {n : Nat} {v : Int} (hn : programFits n = true) (hlow : -1 ≤ v) (hhigh : v < n) :
    targetInRange n (BitVec.ofInt 32 v) = true := by
  have hfits := programFits_iff.mp hn
  by_cases hv : v = -1
  · subst hv; rfl
  · have hnat : (BitVec.ofInt 32 v).toNat = v.toNat := by
      rw [BitVec.toNat_ofInt]
      omega
    simp only [targetInRange, hnat, Bool.or_eq_true, decide_eq_true_eq]
    omega

/-- A placeholder resolves to a well-formed instruction. -/
theorem wellFormed_of_resolveOne {st : AsmState} {a : AsmInstr} {i : Instr} (hst : st.Resolvable)
    (hfits : programFits st.code.length = true) (ha : a ∈ st.code) (h : resolveOne st.labels a = .ok i) :
    i.wellFormed st.code.length = true := by
  cases a with
  | done j => cases h; exact hst.complete _ ha _
  | jump op l line text =>
    simp only [resolveOne] at h
    split at h
    · next v hv =>
      cases h
      obtain ⟨hlow, hhigh⟩ := hst.labelValues _ (mem_of_lookup hv)
      have htarget := targetInRange_ofInt hfits hlow hhigh
      cases op <;> exact htarget
    · cases h

/-- Settles O55: the first pass keeps `Resolvable`, and each instruction is the resolution of its placeholder. -/
theorem assembledProgramResolved : Obligations.AssembledProgramResolved := by
  unfold Obligations.AssembledProgramResolved
  intro lines a h hfits
  obtain ⟨st, hst, hres⟩ := assemble_ok h
  obtain ⟨hlen, hplace⟩ := resolveAll_ok hres
  have hresolvable := firstPass_keeps resolvable_processLine resolvable_empty hst
  rw [programWellFormed, hfits, Bool.true_and, List.all_eq_true]
  intro i hi
  obtain ⟨k, hk, rfl⟩ := List.mem_iff_getElem.mp hi
  obtain ⟨j, hj, hone⟩ := hplace k _ (List.getElem?_eq_getElem (hlen ▸ hk))
  rw [List.getElem?_eq_getElem hk] at hj
  cases hj
  rw [hlen] at hfits ⊢
  exact wellFormed_of_resolveOne hresolvable hfits (List.getElem_mem _) hone

/-! ### Labels (30 R107, R109, R114) -/

/-- A label that binds is found with the value of the place where it stands. -/
theorem lookup_bindLabel {name : Text} {st st' : AsmState} (h : bindLabel name st = .ok st') :
    st'.labels.lookup name = some st.labelValue := by
  unfold bindLabel at h
  split at h
  · split at h
    · cases h
    · next hnew => cases h; simp [List.lookup_append, hnew]
  · cases h

theorem resolveOne_jump {labels : List (Text × Int)} {name : Text} {v : Int}
    (h : labels.lookup name = some v) (op : JumpOp) (line : Nat) (text : Text) :
    resolveOne labels (.jump op name line text) = .ok (op.resolved (BitVec.ofInt 32 v)) := by
  simp [resolveOne, h]

/-- A taken jump lands one past its target (40 R144). -/
theorem pc_afterOf_resolved {op : JumpOp} {i : Word} {s : State} (h : IsTaken (op.resolved i) s) :
    (afterOf (op.resolved i) s).pc = i + 1#32 := by
  have htaken := (isTaken_iff _ _).mp h
  have heff : effectOf (op.resolved i) s = s.setPc i := by
    cases op with
    | go => rfl
    | bin | biz => exact if_pos htaken
  simp [afterOf, htaken, heff]

/-- One past the value of a label is the number of instructions before it. -/
theorem toNat_labelValue_succ {st : AsmState} (h : programFits st.code.length = true) :
    (BitVec.ofInt 32 st.labelValue + 1#32).toNat = st.code.length := by
  have hfits := programFits_iff.mp h
  simp only [AsmState.labelValue, BitVec.toNat_add, BitVec.toNat_ofInt, BitVec.toNat_ofNat]
  omega

/-- Settles O56: the label keeps its value to the end of the first pass, and the jump's landing index is one past
it. -/
theorem jumpLandsAfterLabel : Obligations.JumpLandsAfterLabel := by
  unfold Obligations.JumpLandsAfterLabel
  intro pre post lbl name before all a k op line text hlbl hbefore hall hjump hasm hfits
  have hlookup : all.labels.lookup name = some before.labelValue := by
    rw [firstPass_append, hbefore] at hall
    simp only [firstPass, hlbl] at hall
    split at hall
    · cases hall
    · next st hbind => exact firstPass_keeps lookup_processLine (lookup_bindLabel hbind) hall
  obtain ⟨st, hst, hres⟩ := assemble_ok hasm
  cases hall.symm.trans hst
  obtain ⟨i, hi, hone⟩ := (resolveAll_ok hres).2 k _ hjump
  cases (resolveOne_jump hlookup op line text).symm.trans hone
  refine ⟨_, hi, fun s htaken => ⟨_, exec_eq _ s, ?_⟩⟩
  rw [pc_afterOf_resolved htaken, toNat_labelValue_succ hfits]

/-! ### Diagnostics (30 R108, R109, R112) -/

/-- The first pass over `lines`, from line number `n` and state `st` on, comes to line `line`, of text `text`, with
`before` gathered. -/
inductive Reaches (line : Nat) (text : Text) (before : AsmState) : Nat → List Text → AsmState → Prop
  | here (rest : List Text) : Reaches line text before line (text :: rest) before
  | later {n : Nat} {t : Text} {rest : List Text} {st st' : AsmState} (h : processLine n t st = .ok st')
      (hr : Reaches line text before (n + 1) rest st') : Reaches line text before n (t :: rest) st

/-- The line that the first pass comes to is the source line of that number, and the lines before it pass. -/
theorem Reaches.line_at {line n : Nat} {text : Text} {before st : AsmState} {lines : List Text}
    (h : Reaches line text before n lines st) :
    n ≤ line ∧ lines[line - n]? = some text ∧ firstPass n (lines.take (line - n)) st = .ok before := by
  induction h with
  | here rest => simp [firstPass]
  | @later n t rest st st' hline _ ih =>
    obtain ⟨hle, htext, hpass⟩ := ih
    have hsub : line - n = line - (n + 1) + 1 := by omega
    refine ⟨by omega, ?_, ?_⟩
    · rw [hsub, List.getElem?_cons_succ, htext]
    · rw [hsub, List.take_succ_cons]
      simp only [firstPass, hline, hpass]

/-- A failing first pass fails at a line that it comes to. -/
theorem firstPass_error {n : Nat} {lines : List Text} {st : AsmState} {d : Diagnostic}
    (h : firstPass n lines st = .error d) :
    ∃ before, Reaches d.line d.text before n lines st ∧ processLine d.line d.text before = .error d.kind := by
  induction lines generalizing n st with
  | nil => cases h
  | cons t ts ih =>
    unfold firstPass at h
    split at h
    · next kind hkind => cases h; exact ⟨st, .here ts, hkind⟩
    · next st' hline =>
      obtain ⟨before, hreach, hfail⟩ := ih h
      exact ⟨before, .later hline hreach, hfail⟩

/-- The one way a line appends a jump: it is that line's own (30 R108). -/
theorem processLine_new_jump {n line : Nat} {t text l : Text} {op : JumpOp} {st st' : AsmState}
    (h : processLine n t st = .ok st') (hj : .jump op l line text ∈ st'.code) :
    .jump op l line text ∈ st.code ∨ line = n ∧ text = t ∧ st' = st.append (.jump op l line text) := by
  cases processLine_does h with
  | noCode hcode _ => exact .inl (hcode ▸ hj)
  | oneLabel _ hcode _ _ => exact .inl (hcode ▸ hj)
  | oneInstr i hstate hshape =>
    subst hstate
    rw [AsmState.append_code, List.mem_append, List.mem_singleton] at hj
    obtain hj | rfl := hj
    · exact .inl hj
    · obtain ⟨_, hdone, _⟩ | ⟨_, _, hjump⟩ := hshape
      · cases hdone
      · cases hjump; exact .inr ⟨rfl, rfl, rfl⟩

/-- Every jump that the first pass gathers was appended by the line that it carries (30 R108). -/
theorem firstPass_jump {n line : Nat} {lines : List Text} {st all : AsmState} {op : JumpOp} {l text : Text}
    (h : firstPass n lines st = .ok all) (hj : .jump op l line text ∈ all.code) :
    .jump op l line text ∈ st.code ∨ ∃ before, Reaches line text before n lines st ∧
      processLine line text before = .ok (before.append (.jump op l line text)) := by
  induction lines generalizing n st with
  | nil => cases h; exact .inl hj
  | cons t ts ih =>
    unfold firstPass at h
    split at h
    · cases h
    · next st' hline =>
      obtain hin | ⟨before, hreach, happend⟩ := ih h
      · obtain hin | ⟨rfl, rfl, rfl⟩ := processLine_new_jump hline hin
        · exact .inl hin
        · exact .inr ⟨st, .here ts, hline⟩
      · exact .inr ⟨before, .later hline hreach, happend⟩

theorem DiagKind.code_range (kind : DiagKind) : 1 ≤ kind.code ∧ kind.code ≤ 10 := by
  cases kind <;> simp [DiagKind.code]

/-- A placeholder fails for an unbound label only, with its jump's line and text (30 R109). -/
theorem resolveOne_error {labels : List (Text × Int)} {a : AsmInstr} {d : Diagnostic}
    (h : resolveOne labels a = .error d) :
    ∃ op l, a = .jump op l d.line d.text ∧ d.kind = .undefinedLabel l ∧ labels.lookup l = none := by
  cases a with
  | done i => cases h
  | jump op l line text =>
    simp only [resolveOne] at h
    split at h
    · cases h
    · next hnone => cases h; exact ⟨op, l, rfl, rfl, hnone⟩

/-! The checks of one line know no `UndefinedLabel`: only the resolution pass gives it (30 R109). -/

theorem takeStatement_ne_undefinedLabel (t name : Text) :
    takeStatement t ≠ .error (.undefinedLabel name) := by
  unfold takeStatement
  split
  · simp
  · split <;> simp

theorem literalIn_ne_undefinedLabel (ctx : LiteralContext) (t name : Text) :
    literalIn ctx t ≠ .error (.undefinedLabel name) := by
  unfold literalIn
  split <;> simp

theorem registerToken_ne_undefinedLabel (t name : Text) :
    registerToken t ≠ .error (.undefinedLabel name) := by
  unfold registerToken
  split <;> simp

theorem bindLabel_ne_undefinedLabel (t : Text) (st : AsmState) (name : Text) :
    bindLabel t st ≠ .error (.undefinedLabel name) := by
  unfold bindLabel
  split
  · split <;> simp
  · simp

theorem processInitializer_ne_undefinedLabel (lhs rhs : Text) (st : AsmState) (name : Text) :
    processInitializer lhs rhs st ≠ .error (.undefinedLabel name) := by
  unfold processInitializer
  intro h
  repeat' split at h
  all_goals cases h
  all_goals exact literalIn_ne_undefinedLabel _ _ name ‹_›

theorem processOperation_ne_undefinedLabel (line : Nat) (text m : Text) (args : List Text) (st : AsmState)
    (name : Text) : processOperation line text m args st ≠ .error (.undefinedLabel name) := by
  unfold processOperation
  intro h
  split at h
  · cases h
  · split at h
    · cases h
    · split at h
      · next hx => cases h; exact registerToken_ne_undefinedLabel _ name hx
      · cases h
    · split at h
      · next hx => cases h; exact registerToken_ne_undefinedLabel _ name hx
      · split at h
        · next hy => cases h; exact registerToken_ne_undefinedLabel _ name hy
        · cases h
    · cases h
    · exact bindLabel_ne_undefinedLabel _ st name h
    · cases h

theorem processLine_ne_undefinedLabel (line : Nat) (text : Text) (st : AsmState) (name : Text) :
    processLine line text st ≠ .error (.undefinedLabel name) := by
  unfold processLine
  split
  · simp
  · split
    · next hd => intro h; cases h; exact takeStatement_ne_undefinedLabel _ name hd
    · split
      · exact processInitializer_ne_undefinedLabel _ _ st name
      · exact processOperation_ne_undefinedLabel line text _ _ st name

/-- Settles O58: a failing first pass fails at a line that it comes to, and a failing placeholder is a jump that such
a line appended. -/
theorem diagnosticNamesLine : Obligations.DiagnosticNamesLine := by
  unfold Obligations.DiagnosticNamesLine
  intro lines d h
  have hfail : ∃ before, Reaches d.line d.text before 1 lines AsmState.empty ∧
      (((∀ name, d.kind ≠ .undefinedLabel name) ∧ processLine d.line d.text before = .error d.kind) ∨
        ∃ all op name, d.kind = .undefinedLabel name ∧ firstPass 1 lines AsmState.empty = .ok all ∧
          all.labels.lookup name = none ∧
          processLine d.line d.text before = .ok (before.append (.jump op name d.line d.text))) := by
    obtain hpass | ⟨all, hall, hres⟩ := assemble_error h
    · obtain ⟨before, hreach, hline⟩ := firstPass_error hpass
      exact ⟨before, hreach,
        .inl ⟨fun name hk => processLine_ne_undefinedLabel _ _ _ name (hk ▸ hline), hline⟩⟩
    · obtain ⟨a, ha, hone⟩ := resolveAll_error hres
      obtain ⟨op, l, rfl, hkind, hnone⟩ := resolveOne_error hone
      obtain hin | ⟨before, hreach, happend⟩ := firstPass_jump hall ha
      · cases hin
      · exact ⟨before, hreach, .inr ⟨all, op, l, hkind, hall, hnone, happend⟩⟩
  obtain ⟨before, hreach, hcase⟩ := hfail
  obtain ⟨hle, htext, hpass⟩ := hreach.line_at
  exact ⟨hle, htext, d.kind.code_range.1, d.kind.code_range.2, before, hpass, hcase⟩

/-! ### The load of a program -/

/-- Settles O43: `construct` tests the length of the image first. -/
theorem longProgramRefused : Obligations.LongProgramRefused := by
  unfold Obligations.LongProgramRefused
  intro cfg regInits memInits image hlong
  have hfits : ¬ programFits image.length = true := fun h => Nat.not_le_of_lt hlong (programFits_iff.mp h)
  simp [construct, hfits]

end Sys2Proof.Machine
end

section
/-! Proofs of the statements about the sequencer (40): the decoder, the step and what the host sees of it, the PC
update, and the run loop. -/

namespace Sys2Proof.Machine

open Sys2Proof.Laws

/-! ### The decoder (40 R140) -/

/-- The row's instruction takes its operands from the word's own fields: one opcode value after the other (30 R74). -/
theorem operandsFrom_instrOfOp (w : IWord) : operandsFrom w (instrOfOp w) := by
  have hx : (operandX w).val = w.toNat / 2 ^ 32 % 16 := rxField_toNat w
  have hy : (operandY w).val = w.toNat % 16 := ryField_toNat w
  have hi : (opdField w).toNat = w.toNat % 2 ^ 32 := opdField_toNat w
  unfold instrOfOp
  split <;> simp only [operandsFrom, hx, hy, hi, and_self]

/-- Settles O5: a legal word decodes to the instruction of the row of its `OP`, which it fits. -/
theorem decoderTotal : Obligations.DecoderTotal := by
  unfold Obligations.DecoderTotal
  refine fun w => ⟨fun h => ⟨_, decode_of_not_legal h⟩, fun h => ⟨_, decode_of_legal h, ?_, ?_⟩⟩
  · exact fitsRow_iff.mpr ⟨h, (opNumber_instrOfOp w).symm⟩
  · exact operandsFrom_instrOfOp w

/-! ### The step and the host's step (40 R141, R147, R148) -/

/-- A word at `x[0]` that decodes, with no fault latched: the step is that instruction (40 R143, R156). -/
theorem step_of_decode {s : State} {w : IWord} {i : Instr} (hf : s.fault = none) (hw : s.fetch = some w)
    (hd : decode w = .instr i) : step s = exec i s := by
  simp [step, hf, hw, hd]

theorem step_of_fault {s : State} {c : Cause} {k : Word} (hf : s.fault = some (c, k)) :
    step s = .fault (.latched c k) := by
  simp [step, hf]

/-- From `N_INSTR` on there is no word to fetch (40 R148, R150). -/
theorem step_of_halted {s : State} (hf : s.fault = none) (hp : s.imem.length ≤ s.pc.toNat) :
    step s = .fault .halted := by
  have hw : s.fetch = none := List.getElem?_eq_none hp
  simp [step, hf, hw]

theorem hostStep_of_step_ok {s t : State} (h : step s = .next t) (hf : t.fault = none) :
    hostStep s = (.ok, t) := by
  simp [hostStep, h, hf]

/-- Settles O6, by the step on a word that decodes. -/
theorem stepRunsDecoded : Obligations.StepRunsDecoded := by
  unfold Obligations.StepRunsDecoded
  intro s w i hf hw hd
  exact step_of_decode hf hw hd

/-- Settles O8: the host's step reports why the machine has none. -/
theorem stepOutsideReady : Obligations.StepOutsideReady := by
  unfold Obligations.StepOutsideReady
  intro s
  constructor
  · intro c k hf
    have hstep := step_of_fault hf
    exact ⟨hstep, by simp [hostStep, hstep]⟩
  · intro hf hp
    have hstep := step_of_halted hf hp
    exact ⟨hstep, by simp [hostStep, hstep]⟩

/-- Settles O9: in READY there is a next state, and its latch gives the result. -/
theorem readyStepReturns : Obligations.ReadyStepReturns := by
  unfold Obligations.ReadyStepReturns
  intro s hready
  obtain ⟨t, hstep⟩ := step_of_ready hready
  exact ⟨t, hstep, hostStep_of_step_ok hstep, fun c k => hostStep_of_step_fault hstep⟩

/-! ### The PC update (40 R144, R145) -/

theorem fault_afterOf_of_taken {i : Instr} {s : State} (h : IsTaken i s) : (afterOf i s).fault = s.fault := by
  simp [afterOf_fault, (isTaken_iff i s).mp h]

/-- Settles O11: the three jumps land one past their target, and a taken jump raises no fault. -/
theorem takenJumpLands : Obligations.TakenJumpLands := by
  unfold Obligations.TakenJumpLands
  intro i s target hi htaken
  obtain ⟨op, rfl⟩ : ∃ op : JumpOp, i = op.resolved target := by
    obtain rfl | rfl | rfl := hi
    · exact ⟨.go, rfl⟩
    · exact ⟨.bin, rfl⟩
    · exact ⟨.biz, rfl⟩
  refine ⟨_, exec_eq _ s, ?_, fault_afterOf_of_taken htaken⟩
  rw [pc_afterOf_resolved htaken, BitVec.toNat_add]
  rfl

/-- An instruction that is no taken jump moves the PC from what its effect left in register 0 (40 R145). -/
theorem pcAdvances_afterOf {i : Instr} {s : State} (h : ¬ IsTaken i s) :
    PcAdvances s (afterOf i s) (pcAfterEffect i s) := by
  have htaken : takenOf i s = false := by simpa [isTaken_iff] using h
  rw [← effectOf_pc htaken, afterOf, htaken]
  exact s.updateNext_pcAdvances _ (effectOf_fault i s) (effectOf_cfg i s)

/-- Settles O12: the update follows the effect, whose register write stays, and from a fetch in a store that fits
only a write reaches `0xFFFFFFFF`. -/
theorem pcUpdateAfterOthers : Obligations.PcUpdateAfterOthers := by
  unfold Obligations.PcUpdateAfterOthers
  intro i s hnot
  refine ⟨_, exec_eq i s, pcAdvances_afterOf hnot, ?_, ?_⟩
  · intro x v hw hx
    rw [readReg_afterOf i s hx, (effectOf_registerWrite hw).1, readReg_writeReg_stored]
  · intro w hfits hw hp
    exact registerWrite_of_pcAfterEffect (pc_ne_of_fetch hfits hw) hp

/-! ### The machine under another run controller (10 R38)

No instruction reads or writes `STEP_COUNT`, `LIMIT` or `STOP_REQ`, so the step does not depend on them. -/

theorem SameMachine.refl (s : State) : SameMachine s s := by
  simp [SameMachine]

theorem SameMachine.symm {s t : State} (h : SameMachine s t) : SameMachine t s := by
  simpa only [SameMachine, eq_comm] using h

theorem SameMachine.trans {s t u : State} (hst : SameMachine s t) (htu : SameMachine t u) : SameMachine s u := by
  obtain ⟨h1, h2, h3, h4, h5, h6, h7, h8, h9⟩ := hst
  simpa only [SameMachine, h1, h2, h3, h4, h5, h6, h7, h8, h9] using htu

theorem sameMachine_beginRun (s : State) (l : Option Int) : SameMachine s (s.beginRun l) := SameMachine.refl s
theorem sameMachine_countStep (s : State) : SameMachine s s.countStep := SameMachine.refl s
theorem sameMachine_clearStop (s : State) : SameMachine s s.clearStop := SameMachine.refl s

theorem sameMachine_requestStopIf (b : Bool) (s : State) : SameMachine s (requestStopIf b s) := by
  cases b <;> exact SameMachine.refl s

/-- The machine `s` with the run controller of `c`. -/
def State.withControlOf (s c : State) : State :=
  { s with stepCount := c.stepCount, limit := c.limit, stopReq := c.stopReq }

theorem sameMachine_withControlOf (s c : State) : SameMachine (s.withControlOf c) s := SameMachine.refl s

theorem SameMachine.eq_withControlOf {m s : State} (h : SameMachine m s) : m = s.withControlOf m := by
  cases m
  cases s
  obtain ⟨rfl, rfl, rfl, rfl, rfl, rfl, rfl, rfl, rfl⟩ := h
  rfl

theorem writeReg_withControlOf (s c : State) (r : Reg) (v : Word) :
    (s.withControlOf c).writeReg r v = (s.writeReg r v).withControlOf c := by
  cases h : s.cfg.constRegsHardwired && isConstReg r <;> simp only [State.writeReg, State.withControlOf, h] <;> rfl

theorem updateNext_withControlOf (s c : State) (k : Word) :
    (s.withControlOf c).updateNext k = (s.updateNext k).withControlOf c := by
  by_cases h : s.pc = allOnes32
  · rw [s.updateNext_of_eq k h, (s.withControlOf c).updateNext_of_eq k h]
    simp only [State.withControlOf]
    cases s.cfg.pcOverflowMode <;> rfl
  · rw [s.updateNext_of_ne k h, (s.withControlOf c).updateNext_of_ne k h]
    rfl

theorem effectOf_withControlOf (i : Instr) (s c : State) :
    effectOf i (s.withControlOf c) = (effectOf i s).withControlOf c := by
  cases i with
  | bin j => exact (apply_ite (State.withControlOf · c) (s.n = true) (s.setPc j) s).symm
  | biz j => exact (apply_ite (State.withControlOf · c) (s.z = true) (s.setPc j) s).symm
  | rb | add | and | mv | not | rs | ls => exact writeReg_withControlOf s c _ _
  | sa | rd | wr | sb | sf | go | sw => rfl

theorem takenOf_withControlOf (i : Instr) (s c : State) : takenOf i (s.withControlOf c) = takenOf i s := by
  cases i <;> rfl

theorem afterOf_withControlOf (i : Instr) (s c : State) :
    afterOf i (s.withControlOf c) = (afterOf i s).withControlOf c := by
  simp only [afterOf, takenOf_withControlOf, effectOf_withControlOf]
  split
  · rfl
  · exact updateNext_withControlOf (effectOf i s) c s.pc

/-- Under another run controller the machine takes the same step. -/
theorem step_withControlOf {s t : State} (c : State) (h : step s = .next t) :
    step (s.withControlOf c) = .next (t.withControlOf c) := by
  obtain ⟨hf, w, hw, ⟨hl, rfl⟩ | ⟨i, hd, rfl⟩⟩ := step_next h
  · exact step_of_not_legal (s := s.withControlOf c) hf hw hl
  · rw [step_of_decode (s := s.withControlOf c) hf hw hd, exec_eq, afterOf_withControlOf]

/-- Where two states are the same machine, a step of the one is a step of the other. -/
theorem step_of_sameMachine {m s t : State} (h : SameMachine m s) (hstep : step s = .next t) :
    ∃ u, step m = .next u ∧ SameMachine u t := by
  rw [h.eq_withControlOf]
  exact ⟨_, step_withControlOf m hstep, sameMachine_withControlOf t m⟩

theorem SameMachine.runState_eq {s t : State} (h : SameMachine s t) : t.runState = s.runState := by
  rw [h.symm.eq_withControlOf]
  rfl

/-! ### The tests of the run loop (40 R149) -/

theorem budgetSpent_iff {s : State} :
    s.budgetSpent = true ↔ ∃ l, s.limit = some l ∧ 0 < l ∧ (s.stepCount : Int) = l := by
  unfold State.budgetSpent
  cases s.limit with
  | none => simp
  | some l => simp only [Bool.and_eq_true, decide_eq_true_eq, Option.some.injEq, exists_eq_left']

/-- The four tests in READY: only the budget and the stop request can return. -/
theorem runTest_of_ready {s : State} (h : s.runState = .ready) :
    runTest s = if s.budgetSpent then some .incomplete else if s.stopReq then some .stopped else none := by
  obtain ⟨hf, hp⟩ := (runState_ready_iff s).mp h
  have hp' : ¬ s.nInstr ≤ s.pc.toNat := Nat.not_le_of_lt hp
  simp only [runTest, hf, hp', if_false]

theorem runTest_of_halted {s : State} (hf : s.fault = none) (hp : s.imem.length ≤ s.pc.toNat) :
    runTest s = some .complete := by
  have hp' : s.nInstr ≤ s.pc.toNat := hp
  simp only [runTest, hf, hp', if_true]

theorem runTest_of_fault {s : State} {c : Cause} {k : Word} (hf : s.fault = some (c, k)) :
    runTest s = some (.fault c) := by
  simp only [runTest, hf]

/-- What holds of the state at the tests that return each result (40 R149, R154). -/
def stopsWith (s : State) : RunResult → Prop
  | .fault c => ∃ k, s.fault = some (c, k)
  | .complete => s.fault = none ∧ s.imem.length ≤ s.pc.toNat
  | .incomplete => s.runState = .ready ∧ s.budgetSpent = true
  | .stopped => s.runState = .ready ∧ s.budgetSpent = false ∧ s.stopReq = true

/-- The tests return a result exactly in its state: a latched fault, then `N_INSTR`, then READY. -/
theorem runTest_eq_some_iff {s : State} {r : RunResult} : runTest s = some r ↔ stopsWith s r := by
  by_cases hready : s.runState = .ready
  · obtain ⟨hf, hp⟩ := (runState_ready_iff s).mp hready
    rw [runTest_of_ready hready]
    cases hb : s.budgetSpent <;> cases r <;> simp [stopsWith, hready, hf, hb, Nat.not_le_of_lt hp]
  · cases hf : s.fault with
    | some p =>
      obtain ⟨c, k⟩ := p
      rw [runTest_of_fault hf]
      cases r <;> simp [stopsWith, hready, hf]
    | none =>
      have hp : s.imem.length ≤ s.pc.toNat := by simpa [runState_ready_iff, hf] using hready
      rw [runTest_of_halted hf hp]
      cases r <;> simp [stopsWith, hready, hp, hf]

/-- A machine that stopped with a fault or at its end is stopped so under any run controller. -/
theorem runTest_of_sameMachine {s t : State} {r : RunResult} (h : SameMachine s t)
    (hr : r = .complete ∨ ∃ c, r = .fault c) (hs : runTest s = some r) : runTest t = some r := by
  rw [runTest_eq_some_iff] at hs ⊢
  rw [h.symm.eq_withControlOf]
  obtain rfl | ⟨c, rfl⟩ := hr <;> exact hs

/-! ### Runs (40 R149 to R155) -/

theorem stepCount_requestStopIf (b : Bool) (s : State) : (requestStopIf b s).stepCount = s.stepCount := by
  cases b <;> rfl

theorem limit_requestStopIf (b : Bool) (s : State) : (requestStopIf b s).limit = s.limit := by
  cases b <;> rfl

/-- A run whose first tests return makes no step: it leaves the machine as it was. -/
theorem run_of_runTest {limit : Option Int} {req : Bool} {s : State} {r : RunResult}
    (h : runTest (requestStopIf req (s.beginRun limit)) = some r) (reqs : List Bool) :
    ∃ u, run limit (req :: reqs) s = some (r, u) ∧ u.stepCount = 0 ∧ u.stopReq = false ∧ SameMachine s u := by
  refine ⟨(requestStopIf req (s.beginRun limit)).clearStop, ?_, ?_, rfl, ?_⟩
  · simp only [run, runLoop, h]
  · exact stepCount_requestStopIf req _
  · exact ((sameMachine_beginRun s limit).trans (sameMachine_requestStopIf req _)).trans (sameMachine_clearStop _)

/-- Settles O52: with no step made no positive budget is spent, so the stop request is the test that returns. -/
theorem stopBeforeFirstStep : Obligations.StopBeforeFirstStep := by
  unfold Obligations.StopBeforeFirstStep
  intro limit req reqs s hready hstop
  have hsame := (sameMachine_beginRun s limit).trans (sameMachine_requestStopIf req _)
  apply run_of_runTest
  refine runTest_eq_some_iff.mpr ⟨hsame.runState_eq.trans hready, ?_, ?_⟩
  · rw [← Bool.not_eq_true, budgetSpent_iff]
    rintro ⟨l, -, hpos, hspent⟩
    rw [stepCount_requestStopIf, State.beginRun_stepCount] at hspent
    omega
  · cases req
    · exact hstop
    · rfl

/-- The rounds of the loop from a state and a list of arrivals, to the state `v` at the last tests, with `k` steps
before them: every round but the last passes the tests and steps (40 R149). -/
inductive Rounds (v : State) : Nat → List Bool → State → Prop
  | last {q : Bool} {qs : List Bool} {s : State} (hv : v = requestStopIf q s) : Rounds v 0 (q :: qs) s
  | step {k : Nat} {q : Bool} {qs : List Bool} {s u : State} (htest : runTest (requestStopIf q s) = none)
      (hstep : step (requestStopIf q s) = .next u) (hrest : Rounds v k qs u.countStep) :
      Rounds v (k + 1) (q :: qs) s

/-- A loop that returns does so at the tests of its last round, and clears the stop request. -/
theorem rounds_of_runLoop {reqs : List Bool} {s t : State} {r : RunResult}
    (h : runLoop reqs s = some (r, t)) : ∃ k v, Rounds v k reqs s ∧ runTest v = some r ∧ t = v.clearStop := by
  induction reqs generalizing s with
  | nil => cases h
  | cons q qs ih =>
    obtain ⟨htest, rfl⟩ | ⟨u, htest, hstep, hrest⟩ := runLoop_cons h
    · exact ⟨0, _, .last rfl, htest, rfl⟩
    · obtain ⟨k, v, hrounds, hv⟩ := ih hrest
      exact ⟨k + 1, v, .step htest hstep hrounds, hv⟩

/-- A step of the loop counts itself and leaves the budget, and the stop request that its tests saw. -/
theorem control_of_step {q : Bool} {s u : State} (h : step (requestStopIf q s) = .next u) :
    u.countStep.stepCount = s.stepCount + 1 ∧ u.countStep.limit = s.limit ∧
      u.countStep.stopReq = (requestStopIf q s).stopReq := by
  obtain ⟨-, -, hcount, hlimit, hstop⟩ := step_sameFixed h
  rw [stepCount_requestStopIf] at hcount
  rw [limit_requestStopIf] at hlimit
  exact ⟨congrArg (· + 1) hcount, hlimit, hstop⟩

/-- A round steps only with budget left (40 R151). -/
theorem stepCount_lt_of_runTest_none {q : Bool} {s : State} {l : Int} (h : runTest (requestStopIf q s) = none)
    (hl : s.limit = some l) (hpos : 0 < l) (hs : (s.stepCount : Int) ≤ l) : (s.stepCount : Int) < l := by
  refine lt_of_le_of_ne hs fun hspent => ?_
  obtain ⟨-, hleft, -⟩ := runTest_none h
  rw [← Bool.not_eq_true, budgetSpent_iff, limit_requestStopIf, stepCount_requestStopIf] at hleft
  exact hleft ⟨l, hl, hpos, hspent⟩

/-- A stop request is pending at a later test exactly when it is, counted from the round after this one. -/
theorem stopPendingAt_cons_succ {s u : State} {q : Bool} (hu : u.stopReq = (requestStopIf q s).stopReq)
    (qs : List Bool) (k : Nat) : stopPendingAt s (q :: qs) (k + 1) ↔ stopPendingAt u qs k := by
  unfold stopPendingAt
  rw [hu]
  cases q <;> simp [requestStopIf]

namespace Rounds

variable {v s : State} {k : Nat} {reqs : List Bool}

/-- `STEP_COUNT` counts the steps of the rounds. -/
theorem stepCount (h : Rounds v k reqs s) : v.stepCount = s.stepCount + k := by
  induction h with
  | last hv => rw [hv, stepCount_requestStopIf, Nat.add_zero]
  | step _ hstep _ ih =>
    rw [ih, (control_of_step hstep).1]
    omega

theorem limit (h : Rounds v k reqs s) : v.limit = s.limit := by
  induction h with
  | last hv => rw [hv, limit_requestStopIf]
  | step _ hstep _ ih => rw [ih, (control_of_step hstep).2.1]

/-- The rounds make `k` single steps of the machine, from any state that is the same machine. -/
theorem steps {m : State} (h : Rounds v k reqs s) (hm : SameMachine m s) :
    ∃ u, stepTimes k m = .next u ∧ SameMachine u v := by
  induction h generalizing m with
  | last hv => exact ⟨m, rfl, hv ▸ hm.trans (sameMachine_requestStopIf _ _)⟩
  | step _ hstep _ ih =>
    obtain ⟨m', hm', hsame⟩ := step_of_sameMachine (hm.trans (sameMachine_requestStopIf _ _)) hstep
    obtain ⟨u, hu, huv⟩ := ih (hsame.trans (sameMachine_countStep _))
    exact ⟨u, by simp only [stepTimes, hm', hu], huv⟩

/-- No round steps on a spent budget, so the count does not pass it (40 R151). -/
theorem stepCount_le {l : Int} (h : Rounds v k reqs s) (hl : s.limit = some l) (hpos : 0 < l)
    (hs : (s.stepCount : Int) ≤ l) : (v.stepCount : Int) ≤ l := by
  induction h with
  | last hv => rwa [hv, stepCount_requestStopIf]
  | step htest hstep _ ih =>
    obtain ⟨hcount, hlimit, -⟩ := control_of_step hstep
    have hlt := stepCount_lt_of_runTest_none htest hl hpos hs
    exact ih (hlimit.trans hl) (by omega)

/-- `STOP_REQ` at the last tests, the `k + 1`st: whether a request was pending before or arrived since (40 R153). -/
theorem stopReq_iff (h : Rounds v k reqs s) : v.stopReq = true ↔ stopPendingAt s reqs (k + 1) := by
  induction h with
  | last hv => rw [hv, stopPendingAt_cons_succ rfl]; simp [stopPendingAt]
  | step _ hstep _ ih => rw [ih, stopPendingAt_cons_succ (control_of_step hstep).2.2]

/-- No stop request was pending at the last tests that a step followed. -/
theorem not_stopPendingAt (h : Rounds v k reqs s) (hk : 0 < k) : ¬ stopPendingAt s reqs k := by
  induction h with
  | last => cases hk
  | @step k q qs s u htest hstep _ ih =>
    obtain ⟨-, -, hstop⟩ := control_of_step hstep
    rw [stopPendingAt_cons_succ hstop]
    obtain rfl | hk := Nat.eq_zero_or_pos k
    · have hnone := hstop.trans (runTest_none htest).2.2
      simpa [stopPendingAt] using hnone
    · exact ih hk

end Rounds

/-- Settles O48: the rounds of the run are steps of the machine, which the run controller's values do not reach. -/
theorem runIsIteratedStep : Obligations.RunIsIteratedStep := by
  unfold Obligations.RunIsIteratedStep
  intro limit reqs s t r hrun
  obtain ⟨k, v, hrounds, -, rfl⟩ := rounds_of_runLoop hrun
  obtain ⟨u, hu, huv⟩ := hrounds.steps (sameMachine_beginRun s limit)
  have hcount : v.clearStop.stepCount = k := hrounds.stepCount.trans (Nat.zero_add k)
  exact ⟨u, hcount ▸ hu, huv.trans (sameMachine_clearStop v)⟩

/-- Settles O49: what the rounds keep gives the first clauses, and the last tests the meaning of the result. -/
theorem runResultsMean : Obligations.RunResultsMean := by
  unfold Obligations.RunResultsMean
  intro limit reqs s t r hrun
  obtain ⟨k, v, hrounds, htest, rfl⟩ := rounds_of_runLoop hrun
  have hcount : v.stepCount = k := hrounds.stepCount.trans (Nat.zero_add k)
  have hlimit : v.limit = limit := hrounds.limit
  have hbudget (l : Int) (hl : limit = some l) (hpos : 0 < l) : (v.stepCount : Int) ≤ l :=
    hrounds.stepCount_le hl hpos hpos.le
  have hready := (sameMachine_clearStop v).runState_eq
  refine ⟨rfl, hlimit, hbudget, ?_, ?_⟩
  · rw [State.clearStop_stepCount, hcount]
    exact hrounds.not_stopPendingAt
  · have hstops := runTest_eq_some_iff.mp htest
    cases r with
    | fault c => exact hstops
    | complete => exact hstops
    | incomplete =>
      obtain ⟨hv, hspent⟩ := hstops
      obtain ⟨l, hl, hpos, heq⟩ := budgetSpent_iff.mp hspent
      exact ⟨hready.trans hv, l, hlimit.symm.trans hl, hpos, heq⟩
    | stopped =>
      obtain ⟨hv, hleft, hstop⟩ := hstops
      refine ⟨hready.trans hv, ?_, fun l hl hpos => lt_of_le_of_ne (hbudget l hl hpos) fun heq => ?_⟩
      · rw [State.clearStop_stepCount, hcount]
        exact hrounds.stopReq_iff.mp hstop
      · exact Bool.false_ne_true (hleft.symm.trans (budgetSpent_iff.mpr ⟨l, hlimit.trans hl, hpos, heq⟩))

/-- Settles O51: the tests that returned hold of the machine still. -/
theorem runAgain : Obligations.RunAgain := by
  unfold Obligations.RunAgain
  intro limit reqs s t r hrun
  obtain ⟨_, v, -, htest, rfl⟩ := rounds_of_runLoop hrun
  constructor
  · have hstops := runTest_eq_some_iff.mp htest
    rintro (rfl | rfl) <;> exact (sameMachine_clearStop v).runState_eq.trans hstops.1
  · intro limit' req reqs' hr
    have hsame : SameMachine v (requestStopIf req (v.clearStop.beginRun limit')) :=
      ((sameMachine_clearStop v).trans (sameMachine_beginRun _ limit')).trans (sameMachine_requestStopIf req _)
    obtain ⟨u, hu, hcount, -, hmachine⟩ := run_of_runTest (runTest_of_sameMachine hsame hr htest) reqs'
    exact ⟨u, hu, hcount, hmachine⟩

theorem runLoop_of_step {q : Bool} {s u : State} (htest : runTest (requestStopIf q s) = none)
    (hstep : step (requestStopIf q s) = .next u) (qs : List Bool) :
    runLoop (q :: qs) s = runLoop qs u.countStep := by
  simp only [runLoop, htest, hostStep_state hstep]

/-- A loop whose positive budget is smaller than the rounds it may make returns, by induction over the rounds. -/
theorem runLoop_returns {l : Int} (hpos : 0 < l) {reqs : List Bool} {s : State} (hl : s.limit = some l)
    (hs : (s.stepCount : Int) ≤ l) (hlen : l < s.stepCount + reqs.length) :
    ∃ r t, runLoop reqs s = some (r, t) := by
  induction reqs generalizing s with
  | nil =>
    rw [List.length_nil] at hlen
    omega
  | cons q qs ih =>
    cases htest : runTest (requestStopIf q s) with
    | some r => exact ⟨r, (requestStopIf q s).clearStop, by simp only [runLoop, htest]⟩
    | none =>
      obtain ⟨u, hstep⟩ := step_of_ready (runTest_none htest).1
      obtain ⟨hcount, hlimit, -⟩ := control_of_step hstep
      have hlt := stepCount_lt_of_runTest_none htest hl hpos hs
      rw [List.length_cons] at hlen
      rw [runLoop_of_step htest hstep]
      exact ih (hlimit.trans hl) (by omega) (by omega)

/-- Settles O50: a run begins with no step counted. -/
theorem runEndsWithinBudget : Obligations.RunEndsWithinBudget := by
  unfold Obligations.RunEndsWithinBudget
  intro l reqs s hpos hlen
  exact runLoop_returns (s := s.beginRun (some l)) hpos rfl hpos.le (by simpa using hlen)

end Sys2Proof.Machine
end

section
/-! Proofs of the statements about the memory-transfer instructions (41): what SA, RB, RD, WR, SB and SW load and
store, and which instructions use the latches. -/

namespace Sys2Proof.Machine

open Sys2Proof.Laws

/-- The word of an instruction decodes to it. -/
theorem decode_of_eq_encode {w : IWord} {i : Instr} (h : w = encode i) : decode w = .instr i :=
  h ▸ decode_encode i

/-! ### The latches and the data memory after an instruction -/

/-- The PC update leaves MAR. -/
theorem mar_afterOf (i : Instr) (s : State) : (afterOf i s).mar = (effectOf i s).mar := by
  unfold afterOf
  split <;> simp

/-- The PC update leaves MBR. -/
theorem mbr_afterOf (i : Instr) (s : State) : (afterOf i s).mbr = (effectOf i s).mbr := by
  unfold afterOf
  split <;> simp

/-- The PC update leaves every word of memory. -/
theorem readMem_afterOf (i : Instr) (s : State) (a : Word) : (afterOf i s).readMem a = (effectOf i s).readMem a :=
  congrArg (Memory.read · a.toNat) (mem_afterOf i s)

/-- WR leaves the word at MAR reading as MBR, in a canonical memory (41 R176; log entry 1). -/
theorem readMem_afterOf_wr {s : State} (h : Memory.wf s.mem = true) : (afterOf .wr s).readMem s.mar = s.mbr :=
  (readMem_afterOf .wr s s.mar).trans (s.readMem_writeMem_same s.mar s.mbr h)

/-- SW leaves the word at `x[X]` reading as `x[Y]`, in a canonical memory (41 R180; log entry 1). -/
theorem readMem_afterOf_sw (x y : Reg) {s : State} (h : Memory.wf s.mem = true) :
    (afterOf (.sw x y) s).readMem (s.readReg x) = s.readReg y :=
  (readMem_afterOf (.sw x y) s (s.readReg x)).trans (State.readMem_writeMem_same _ _ _ h)

/-- An instruction that stores nothing leaves every word of memory. -/
theorem sameMemory_afterOf {i : Instr} {s : State} (h : storeAddress i s = none) : SameMemory s (afterOf i s) :=
  (memoryFrame i s _ (exec_eq i s)).1 h

/-- An instruction that stores leaves every word of memory but one. -/
theorem sameMemoryBut_afterOf {i : Instr} {s : State} {a : Word} (h : storeAddress i s = some a) :
    SameMemoryBut a s (afterOf i s) :=
  (memoryFrame i s _ (exec_eq i s)).2 a h

/-! ### What SA, RD, WR, SB and SW leave -/

/-- An instruction that writes no register, is no taken jump and is not SF advances the PC from its own index and
leaves every other register, the flags and the machine's fixed fields. -/
theorem frame_afterOf {i : Instr} {s : State} (hw : registerWrite i s = none) (htaken : ¬ IsTaken i s)
    (hsf : ∀ x, i ≠ .sf x) :
    PcAdvances s (afterOf i s) s.pc ∧ SameRegs s (afterOf i s) ∧ SameFlags s (afterOf i s) ∧
      SameFixed s (afterOf i s) := by
  have hp : pcAfterEffect i s = s.pc := by simp [pcAfterEffect, hw]
  refine ⟨hp ▸ pcAdvances_afterOf htaken, fun r hr => ?_, sameFlags_afterOf s hsf, afterOf_sameFixed i s⟩
  exact readReg_afterOf_of_not_written hr (by simp [hw])

/-- Settles O15: the effect loads MAR, and the frame of an instruction that writes no register does the rest. -/
theorem saLoadsMar : Obligations.SaLoadsMar := by
  unfold Obligations.SaLoadsMar
  intro x s
  obtain ⟨hpc, hregs, hflags, hfixed⟩ := frame_afterOf (i := .sa x) (s := s) rfl id nofun
  exact ⟨decode_of_eq_encode (wordR1_eq_layout 0x0 (by decide) x), _, exec_eq _ s, mar_afterOf _ s,
    mbr_afterOf _ s, hpc, hregs, hflags, sameMemory_afterOf rfl, hfixed⟩

/-- Settles O16: RB is the register write of MBR. -/
theorem rbReadsMbr : Obligations.RbReadsMbr := by
  unfold Obligations.RbReadsMbr
  exact fun x s => ⟨decode_of_eq_encode (wordR1_eq_layout 0x1 (by decide) x),
    writesRegister_of_registerWrite rfl⟩

/-- Settles O17: the effect loads MBR with the word at MAR, which reads 0 where memory lists none. -/
theorem rdReadsMemory : Obligations.RdReadsMemory := by
  unfold Obligations.RdReadsMemory
  refine ⟨decode_of_eq_encode (wordN_eq_layout 0x2 (by decide)), fun s => ?_⟩
  obtain ⟨hpc, hregs, hflags, hfixed⟩ := frame_afterOf (i := .rd) (s := s) rfl id nofun
  have hzero (hnone : ∀ p ∈ s.mem, p.1 ≠ s.mar.toNat) : (afterOf .rd s).mbr = 0x00000000#32 :=
    (mbr_afterOf_rd s).trans (Memory.read_of_forall_ne hnone)
  exact ⟨_, exec_eq _ s, mbr_afterOf_rd s, hzero, mar_afterOf _ s, hpc, hregs, hflags, sameMemory_afterOf rfl,
    hfixed⟩

/-- Settles O18: the effect is one memory write, at MAR. -/
theorem wrStoresMbr : Obligations.WrStoresMbr := by
  unfold Obligations.WrStoresMbr
  refine ⟨decode_of_eq_encode (wordN_eq_layout 0x3 (by decide)), fun s => ?_⟩
  obtain ⟨hpc, hregs, hflags, hfixed⟩ := frame_afterOf (i := .wr) (s := s) rfl id nofun
  exact ⟨_, exec_eq _ s, readMem_afterOf_wr, sameMemoryBut_afterOf rfl, ⟨mar_afterOf _ s, mbr_afterOf _ s⟩, hpc,
    hregs, hflags, hfixed⟩

/-- Settles O19: the effect loads MBR, and the frame of an instruction that writes no register does the rest. -/
theorem sbLoadsMbr : Obligations.SbLoadsMbr := by
  unfold Obligations.SbLoadsMbr
  intro x s
  obtain ⟨hpc, hregs, hflags, hfixed⟩ := frame_afterOf (i := .sb x) (s := s) rfl id nofun
  exact ⟨decode_of_eq_encode (wordR1_eq_layout 0x4 (by decide) x), _, exec_eq _ s, mbr_afterOf _ s,
    mar_afterOf _ s, hpc, hregs, hflags, sameMemory_afterOf rfl, hfixed⟩

/-- Settles O20: the effect loads both latches and makes one memory write, at `x[X]`. -/
theorem swStoresRegister : Obligations.SwStoresRegister := by
  unfold Obligations.SwStoresRegister
  intro x y s
  obtain ⟨hpc, hregs, hflags, hfixed⟩ := frame_afterOf (i := .sw x y) (s := s) rfl id nofun
  exact ⟨decode_of_eq_encode (wordR2_eq_layout 0xF (by decide) x y), _, exec_eq _ s, mar_afterOf _ s,
    mbr_afterOf _ s, readMem_afterOf_sw x y, sameMemoryBut_afterOf rfl, hpc, hregs, hflags, hfixed⟩

/-! ### With other latches (41 R171) -/

/-- A register write and a change of the latches commute. -/
theorem writeReg_setLatches (s : State) (r : Reg) (v a b : Word) :
    ((s.setMar a).setMbr b).writeReg r v = ((s.writeReg r v).setMar a).setMbr b := by
  cases h : s.cfg.constRegsHardwired && isConstReg r <;>
    simp only [State.writeReg, State.setMbr_cfg, State.setMar_cfg, h] <;> rfl

/-- The PC update and a change of the latches commute. -/
theorem updateNext_setLatches (s : State) (k a b : Word) :
    ((s.setMar a).setMbr b).updateNext k = ((s.updateNext k).setMar a).setMbr b := by
  by_cases h : s.pc = allOnes32
  · rw [s.updateNext_of_eq k h, ((s.setMar a).setMbr b).updateNext_of_eq k h, State.setMbr_cfg, State.setMar_cfg]
    cases s.cfg.pcOverflowMode <;> rfl
  · rw [s.updateNext_of_ne k h, ((s.setMar a).setMbr b).updateNext_of_ne k h]
    rfl

/-- The jumps test flags only, so with other latches the same ones are taken. -/
theorem takenOf_setLatches (i : Instr) (s : State) (a b : Word) :
    takenOf i ((s.setMar a).setMbr b) = takenOf i s := by
  cases i <;> rfl

/-- With other latches the effect of an instruction that does not touch them is the same. -/
theorem effectOf_setLatches {i : Instr} (s : State) (a b : Word) (h : touchesLatches i = false) :
    effectOf i ((s.setMar a).setMbr b) = ((effectOf i s).setMar a).setMbr b := by
  cases i with
  | sa | rb | rd | wr | sb | sw => cases h
  | bin j => exact (apply_ite (fun t => (State.setMar t a).setMbr b) (s.n = true) (s.setPc j) s).symm
  | biz j => exact (apply_ite (fun t => (State.setMar t a).setMbr b) (s.z = true) (s.setPc j) s).symm
  | add | and | mv | not | rs | ls => exact writeReg_setLatches s _ _ a b
  | sf | go => rfl

/-- An instruction whose effect is the same with other latches does the same with them. -/
theorem afterOf_setLatches {i : Instr} {s : State} {a b : Word}
    (h : effectOf i ((s.setMar a).setMbr b) = ((effectOf i s).setMar a).setMbr b) :
    afterOf i ((s.setMar a).setMbr b) = ((afterOf i s).setMar a).setMbr b := by
  simp only [afterOf, takenOf_setLatches, h]
  split
  · rfl
  · exact updateNext_setLatches (effectOf i s) s.pc a b

/-- An instruction that does not touch the latches leaves both: it does the same with the ones they already hold. -/
theorem sameLatches_afterOf {i : Instr} (s : State) (h : touchesLatches i = false) : SameLatches s (afterOf i s) :=
  have heq : afterOf i s = ((afterOf i s).setMar s.mar).setMbr s.mbr :=
    afterOf_setLatches (effectOf_setLatches s s.mar s.mbr h)
  ⟨(congrArg State.mar heq :), (congrArg State.mbr heq :)⟩

/-- RB reads MBR and not MAR: with another MAR it does the same (41 R171). -/
theorem afterOf_rb_setMar (x : Reg) (s : State) (a : Word) :
    afterOf (.rb x) (s.setMar a) = (afterOf (.rb x) s).setMar a := by
  have hmbr : (afterOf (.rb x) s).mbr = s.mbr := (mbr_afterOf _ s).trans (s.writeReg_mbr x s.mbr)
  calc afterOf (.rb x) (s.setMar a) = ((afterOf (.rb x) s).setMar a).setMbr s.mbr :=
        afterOf_setLatches (i := .rb x) (writeReg_setLatches s x s.mbr a s.mbr)
    _ = (afterOf (.rb x) s).setMar a := by rw [← hmbr]; rfl

/-- Settles O34: the six transfers each by their effect, every other instruction by its indifference to the
latches. -/
theorem latchUsers : Obligations.LatchUsers := by
  unfold Obligations.LatchUsers
  intro i s t hexec
  obtain rfl := exec_next hexec
  simp only [exec_eq]
  refine ⟨?_, ?_, ?_, ?_, ?_, ?_, ?_⟩
  · intro h
    exact ⟨sameLatches_afterOf s h, fun a b => congrArg _ (afterOf_setLatches (effectOf_setLatches s a b h))⟩
  · rintro x rfl
    obtain ⟨t, ht, hval, -, hpc, -, hlatches, -⟩ := (rbReadsMbr x s).2
    obtain rfl := exec_next ht
    exact ⟨hlatches, hval, hpc, fun a => congrArg _ (afterOf_rb_setMar x s a)⟩
  · rintro rfl
    exact ⟨⟨mar_afterOf _ s, mbr_afterOf _ s⟩, sameMemoryBut_afterOf rfl, readMem_afterOf_wr⟩
  · rintro rfl
    exact ⟨mar_afterOf _ s, mbr_afterOf_rd s⟩
  · rintro x rfl
    exact ⟨mar_afterOf _ s, mbr_afterOf _ s⟩
  · rintro x rfl
    exact ⟨mar_afterOf _ s, mbr_afterOf _ s⟩
  · rintro x y rfl
    exact ⟨mar_afterOf _ s, mbr_afterOf _ s⟩

end Sys2Proof.Machine
end

section
/-! Proofs of the statements about the condition flags and the jumps (42): what SF sets, and where GO, BIN and BIZ
go. -/

namespace Sys2Proof.Machine

open Sys2Proof.Laws

/-- Settles O21: the two flags are those of `x[X]`, never both set, and SF neither writes a register nor touches a
latch or the memory. -/
theorem sfSetsFlags : Obligations.SfSetsFlags := by
  unfold Obligations.SfSetsFlags
  intro x s
  obtain ⟨hn, hz⟩ := flags_afterOf_sf x s
  have hexclusive : (afterOf (.sf x) s).flagsExclusive := by
    rw [State.flagsExclusive, hn, hz]
    exact not_negativeFlag_and_zeroFlag _
  exact ⟨decode_of_eq_encode (wordR1_eq_layout 0x5 (by decide) x), _, exec_eq _ s, hz ▸ zeroFlag_iff _,
    hn ▸ negativeFlag_iff _, hexclusive, pcAdvances_afterOf id, fun _ hr => readReg_afterOf_of_not_written hr nofun,
    sameLatches_afterOf s rfl, sameMemory_afterOf rfl, afterOf_sameFixed _ s⟩

/-- A jump that is taken lands one past its target, one that is not advances the PC from its own index, and either
way nothing else changes (40 R144, R145). -/
theorem jumps_resolved (op : JumpOp) (i : Word) (s : State) :
    Jumps (op.resolved i) (IsTaken (op.resolved i) s) i s := by
  obtain ⟨hwrite, hlatch, hstore⟩ : registerWrite (op.resolved i) s = none ∧
      touchesLatches (op.resolved i) = false ∧ storeAddress (op.resolved i) s = none := by
    cases op <;> exact ⟨rfl, rfl, rfl⟩
  have hsf (x : Reg) : op.resolved i ≠ .sf x := by cases op <;> nofun
  have hlands (htaken : IsTaken (op.resolved i) s) : PcJumps s (afterOf (op.resolved i) s) i :=
    ⟨(congrArg BitVec.toNat (pc_afterOf_resolved htaken)).trans (BitVec.toNat_add i 1#32),
      fault_afterOf_of_taken htaken⟩
  exact ⟨_, exec_eq _ s, hlands, fun hnot => (frame_afterOf hwrite hnot hsf).1,
    fun r hr => readReg_afterOf_of_not_written hr (by simp [hwrite]), sameFlags_afterOf s hsf,
    sameLatches_afterOf s hlatch, sameMemory_afterOf hstore, afterOf_sameFixed _ s⟩

/-- Settles O22: GO is the jump that is always taken. -/
theorem goJumps : Obligations.GoJumps := by
  unfold Obligations.GoJumps
  exact fun i s => ⟨decode_of_eq_encode (wordJ_eq_layout 0x6 (by decide) i), jumps_resolved .go i s⟩

/-- Settles O23: BIN is the jump that tests N. -/
theorem binJumpsIfNegative : Obligations.BinJumpsIfNegative := by
  unfold Obligations.BinJumpsIfNegative
  exact fun i s => ⟨decode_of_eq_encode (wordJ_eq_layout 0x7 (by decide) i), jumps_resolved .bin i s⟩

/-- Settles O24: BIZ is the jump that tests Z. -/
theorem bizJumpsIfZero : Obligations.BizJumpsIfZero := by
  unfold Obligations.BizJumpsIfZero
  exact fun i s => ⟨decode_of_eq_encode (wordJ_eq_layout 0x8 (by decide) i), jumps_resolved .biz i s⟩

end Sys2Proof.Machine
end

section
/-! Proofs of the statements about the ALU (43). Each instruction is the register write of its own rule's value, so
`writesRegister_of_registerWrite` gives completion, the PC update and the frame; what is left is the value. -/

namespace Sys2Proof.Machine

open Sys2Proof.Laws

/-- A word takes a number modulo 2^32, so a rule's own reduction (43 R210, R220) changes nothing. -/
theorem ofNat_mod_two_pow (n : Nat) : BitVec.ofNat 32 (n % 2 ^ 32) = BitVec.ofNat 32 n :=
  BitVec.eq_of_toNat_eq (Nat.mod_mod n (2 ^ 32))

/-- Settles O25: the value ADD writes is the sum as a word. -/
theorem addWraps : Obligations.AddWraps := by
  unfold Obligations.AddWraps
  intro x y s
  rw [ofNat_mod_two_pow]
  exact ⟨decode_of_eq_encode (wordR2_eq_layout 0x9 (by decide) x y), writesRegister_of_registerWrite rfl⟩

/-- Settles O26: the value AND writes is the conjunction of the words, read bit by bit. -/
theorem andIsBitwise : Obligations.AndIsBitwise := by
  unfold Obligations.AndIsBitwise
  exact fun x y s => ⟨decode_of_eq_encode (wordR2_eq_layout 0xA (by decide) x y),
    s.readReg x &&& s.readReg y, fun _ => BitVec.getLsbD_and, writesRegister_of_registerWrite rfl⟩

/-- Settles O27: MV is the register write of `x[Y]`. -/
theorem mvCopies : Obligations.MvCopies := by
  unfold Obligations.MvCopies
  exact fun x y s => ⟨decode_of_eq_encode (wordR2_eq_layout 0xB (by decide) x y),
    writesRegister_of_registerWrite rfl⟩

/-- Settles O28: NOT is the register write of the greatest word less `x[Y]`. -/
theorem notComplements : Obligations.NotComplements := by
  unfold Obligations.NotComplements
  exact fun x y s => ⟨decode_of_eq_encode (wordR2_eq_layout 0xC (by decide) x y),
    writesRegister_of_registerWrite rfl⟩

/-- Settles O29: RS is the register write of half of `x[Y]`, rounded down. -/
theorem rsHalves : Obligations.RsHalves := by
  unfold Obligations.RsHalves
  exact fun x y s => ⟨decode_of_eq_encode (wordR2_eq_layout 0xD (by decide) x y),
    writesRegister_of_registerWrite rfl⟩

/-- Settles O30: the value LS writes is the double as a word. -/
theorem lsDoubles : Obligations.LsDoubles := by
  unfold Obligations.LsDoubles
  intro x y s
  rw [ofNat_mod_two_pow]
  exact ⟨decode_of_eq_encode (wordR2_eq_layout 0xE (by decide) x y), writesRegister_of_registerWrite rfl⟩

end Sys2Proof.Machine
end

section
/-! Proofs of the statements about faults and the debugger's continue (60): what a step that faults records, which
instructions overflow the PC, where a continue goes on and stops, and that a latched fault stays. -/

namespace Sys2Proof.Machine

/-! ### A step that faults (60 R232) -/

/-- What a step that leaves a latched fault can have done: it fetched an illegal word, or its instruction left
`0xFFFFFFFF` in register 0 in mode `fault`. FAULT_IDX is the PC at the fetch in both. -/
theorem step_raises {s t : State} {c : Cause} {k : Word} (h : step s = .next t) (ht : t.fault = some (c, k)) :
    k = s.pc ∧ ∃ w, s.fetch = some w ∧
      ((c = .illegalInstruction ∧ legal w = false ∧ t = s.takeIllegal) ∨
        ∃ i, c = .pcOverflow ∧ decode w = .instr i ∧ t = afterOf i s ∧ takenOf i s = false ∧
          pcAfterEffect i s = allOnes32 ∧ s.cfg.pcOverflowMode = .fault) := by
  obtain ⟨hf, w, hw, ⟨hl, rfl⟩ | ⟨i, hd, rfl⟩⟩ := step_next h
  · cases ht
    exact ⟨rfl, w, hw, .inl ⟨rfl, hl, rfl⟩⟩
  · rw [afterOf_fault] at ht
    split_ifs at ht with hover
    · cases ht
      exact ⟨rfl, w, hw, .inr ⟨i, rfl, hd, rfl, hover⟩⟩
    · rw [hf] at ht
      cases ht

/-- Settles O13, by the two ways a step raises a fault. -/
theorem faultRecords : Obligations.FaultRecords := by
  unfold Obligations.FaultRecords
  intro s t c k hstep ht
  obtain ⟨hk, w, hw, ⟨rfl, hl, rfl⟩ | ⟨i, rfl, hd, rfl, htaken, hp, hmode⟩⟩ := step_raises hstep ht
  · exact ⟨hk, fun _ => ⟨⟨w, hw, hl⟩, rfl⟩, nofun⟩
  · have hnot : ¬ IsTaken i s := by simp [isTaken_iff, htaken]
    exact ⟨hk, nofun, fun _ => ⟨hmode, pc_afterOf_of_overflow htaken hp hmode, w, i, hw, hd, hnot, hp⟩⟩

/-- Settles O14: the instruction that overflowed left `0xFFFFFFFF` in register 0, and was not fetched from there. -/
theorem onlyFourOverflowPc : Obligations.OnlyFourOverflowPc := by
  unfold Obligations.OnlyFourOverflowPc
  intro s t w i k hfits hw hd hstep ht
  obtain ⟨-, w', hw', ⟨hc, -⟩ | ⟨i', -, hd', -, -, hp, -⟩⟩ := step_raises hstep ht
  · cases hc
  · obtain rfl : w = w' := Option.some.inj (hw.symm.trans hw')
    obtain rfl : i = i' := Decoded.instr.inj (hd.symm.trans hd')
    exact mayOverflowPc_of_pcAfterEffect (pc_ne_of_fetch hfits hw) hp

/-! ### The debugger's continue (60 R242) -/

theorem SameMachine.readReg_eq {s t : State} (h : SameMachine s t) (r : Reg) : t.readReg r = s.readReg r := by
  rw [h.symm.eq_withControlOf]
  rfl

/-- The first test after a step sees a stop request exactly when one is pending there: a step leaves `STOP_REQ`. -/
theorem stopReq_requestStopIf_hostStep (q : Bool) (qs : List Bool) (s : State) :
    (requestStopIf q (hostStep s).2).stopReq = true ↔ stopPendingAt s (q :: qs) 1 := by
  cases q <;> simp [requestStopIf, stopPendingAt]

/-- The conditions to go on after the first call are the loop's own test. -/
theorem continueGoesOn_zero_iff (breaks : List Word) (q : Bool) (qs : List Bool) (s : State) :
    let t := requestStopIf q (hostStep s).2
    continueGoesOn breaks (q :: qs) s 0 ↔
      (hostStep s).1 = .ok ∧ t.runState = .ready ∧ t.pc ∉ breaks ∧ t.stopReq = false := by
  have hsame := sameMachine_requestStopIf q (hostStep s).2
  simp only [continueGoesOn, hostSteps, State.pc, hsame.runState_eq, hsame.readReg_eq, ← Bool.not_eq_true,
    stopReq_requestStopIf_hostStep q qs s]

/-- A continue goes on after the first call only where no stop request arrives. -/
theorem eq_false_of_goesOn {breaks : List Word} {q : Bool} {qs : List Bool} {s : State}
    (h : continueGoesOn breaks (q :: qs) s 0) : q = false := by
  obtain ⟨-, -, -, hstop⟩ := (continueGoesOn_zero_iff breaks q qs s).mp h
  cases q
  · rfl
  · cases hstop

/-- One round of a continue: where the conditions hold it is the continue from the next machine, else it returns. -/
theorem debugContinue_cons (breaks : List Word) (q : Bool) (qs : List Bool) (s : State) :
    (continueGoesOn breaks (q :: qs) s 0 ∧
      debugContinue breaks (q :: qs) s = debugContinue breaks qs (hostStep s).2) ∨
    (¬ continueGoesOn breaks (q :: qs) s 0 ∧
      debugContinue breaks (q :: qs) s = some ((hostStep s).1, requestStopIf q (hostStep s).2)) := by
  have hiff := continueGoesOn_zero_iff breaks q qs s
  by_cases h : continueGoesOn breaks (q :: qs) s 0
  · refine .inl ⟨h, ?_⟩
    obtain rfl := eq_false_of_goesOn h
    rw [debugContinue, continueLoop, if_pos (hiff.mp h), debugContinue]
    rfl
  · exact .inr ⟨h, by rw [debugContinue, continueLoop, if_neg (mt hiff.mpr h)]⟩

/-- Where a continue goes on after the first call, no stop request has been seen, so those pending later are those
pending for the continue from the next machine. -/
theorem stopPendingAt_succ_of_goesOn {breaks : List Word} {q : Bool} {qs : List Bool} {s : State}
    (h : continueGoesOn breaks (q :: qs) s 0) (k : Nat) :
    stopPendingAt s (q :: qs) (k + 1) ↔ stopPendingAt (hostStep s).2 qs k := by
  obtain rfl := eq_false_of_goesOn h
  exact stopPendingAt_cons_succ (hostStep_stopReq s) qs k

/-- Where a continue goes on after the first call, its later calls are those of the continue from the next machine. -/
theorem continueGoesOn_succ_iff {breaks : List Word} {q : Bool} {qs : List Bool} {s : State}
    (h : continueGoesOn breaks (q :: qs) s 0) (k : Nat) :
    continueGoesOn breaks (q :: qs) s (k + 1) ↔ continueGoesOn breaks qs (hostStep s).2 k := by
  simp only [continueGoesOn, hostSteps, stopPendingAt_succ_of_goesOn h]

/-- A continue that returns did so after the first call where the conditions fail, by induction over its rounds. -/
theorem debugContinue_returns {breaks : List Word} {reqs : List Bool} {s t : State} {r : StepResult}
    (h : debugContinue breaks reqs s = some (r, t)) :
    ∃ k, k < reqs.length ∧ r = (hostSteps k s).1 ∧ SameMachine (hostSteps k s).2 t ∧
      (t.stopReq = true ↔ stopPendingAt s reqs (k + 1)) ∧ ¬ continueGoesOn breaks reqs s k ∧
      ∀ j < k, continueGoesOn breaks reqs s j := by
  induction reqs generalizing s with
  | nil => cases h
  | cons q qs ih =>
    obtain ⟨hgo, hrest⟩ | ⟨hstop, hret⟩ := debugContinue_cons breaks q qs s
    · obtain ⟨k, hk, hr, hsame, hreq, hfails, hbefore⟩ := ih (hrest.symm.trans h)
      refine ⟨k + 1, Nat.succ_lt_succ hk, hr, hsame, ?_, ?_, ?_⟩
      · rw [hreq, stopPendingAt_succ_of_goesOn hgo]
      · rwa [continueGoesOn_succ_iff hgo]
      · intro j hj
        cases j with
        | zero => exact hgo
        | succ j => exact (continueGoesOn_succ_iff hgo j).mpr (hbefore j (Nat.lt_of_succ_lt_succ hj))
    · cases hret.symm.trans h
      exact ⟨0, Nat.succ_pos _, rfl, sameMachine_requestStopIf q _, stopReq_requestStopIf_hostStep q qs s, hstop,
        nofun⟩

/-- A continue whose arrivals end first found the conditions after every call, by induction over its rounds. -/
theorem continueGoesOn_of_debugContinue_none {breaks : List Word} {reqs : List Bool} {s : State}
    (h : debugContinue breaks reqs s = none) {k : Nat} (hk : k < reqs.length) :
    continueGoesOn breaks reqs s k := by
  induction reqs generalizing s k with
  | nil => cases hk
  | cons q qs ih =>
    obtain ⟨hgo, hrest⟩ | ⟨-, hret⟩ := debugContinue_cons breaks q qs s
    · cases k with
      | zero => exact hgo
      | succ k => exact (continueGoesOn_succ_iff hgo k).mpr (ih (hrest.symm.trans h) (Nat.lt_of_succ_lt_succ hk))
    · cases hret.symm.trans h

/-- Settles O53: the condition that fails after the last call is read off the machine the continue leaves. -/
theorem continueStops : Obligations.ContinueStops := by
  unfold Obligations.ContinueStops
  refine ⟨?_, fun breaks reqs s h k hk => continueGoesOn_of_debugContinue_none h hk⟩
  intro breaks reqs s t r h
  obtain ⟨k, hk, hr, hsame, hreq, hfails, hbefore⟩ := debugContinue_returns h
  refine ⟨k, hk, hr, hsame, hreq, ?_, hbefore⟩
  rw [continueGoesOn, ← hr, ← hsame.runState_eq, ← hsame.readReg_eq, ← hreq] at hfails
  tauto

/-! ### A latched fault stays (60 R233) -/

/-- A continue from a latched fault stops at its first call, which changes nothing. -/
theorem debugContinue_of_fault {breaks : List Word} {reqs : List Bool} {s t : State} {r : StepResult} {c : Cause}
    (hstep : hostStep s = (.fault c, s)) (h : debugContinue breaks reqs s = some (r, t)) :
    r = .fault c ∧ SameMachine s t := by
  cases reqs with
  | nil => cases h
  | cons q qs =>
    obtain ⟨⟨hok, -⟩, -⟩ | ⟨-, hret⟩ := debugContinue_cons breaks q qs s
    · rw [hostSteps, hstep] at hok
      cases hok
    · rw [hret, hstep] at h
      cases h
      exact ⟨rfl, sameMachine_requestStopIf q s⟩

theorem fault_applyRegInits (inits : List (Reg × Word)) (s : State) :
    (applyRegInits inits s).fault = s.fault :=
  inits.foldlRecOn (motive := fun t : State => t.fault = s.fault) _ rfl fun _ ht _ _ => ht

theorem fault_applyMemInits (inits : List (Word × Word)) (s : State) :
    (applyMemInits inits s).fault = s.fault :=
  inits.foldlRecOn (motive := fun t : State => t.fault = s.fault) _ rfl fun _ ht _ _ => ht

/-- The reset sequence clears the latch in its first step, and no later one writes it (70 R260). -/
theorem fault_constructed (cfg : Config) (regInits : List (Reg × Word)) (memInits : List (Word × Word))
    (image : List IWord) : (constructed cfg regInits memInits image).fault = none := by
  simp [constructed, fault_applyMemInits, forceConstRegs, fault_applyRegInits, zeroedState, State.reset]

/-- Settles O10: no step is possible with a fault latched, and the other transactions report it. -/
theorem faultsSticky : Obligations.FaultsSticky := by
  unfold Obligations.FaultsSticky
  constructor
  · intro s c k hf
    have hstep : hostStep s = (.fault c, s) := ((stepOutsideReady s).1 c k hf).2
    refine ⟨hstep, ?_, hf, fun breaks reqs r t => debugContinue_of_fault hstep⟩
    intro limit req reqs
    have hsame := (sameMachine_beginRun s limit).trans (sameMachine_requestStopIf req _)
    have htest := runTest_of_sameMachine hsame (.inr ⟨c, rfl⟩) (runTest_of_fault hf)
    obtain ⟨t, hrun, hcount, -, hmachine⟩ := run_of_runTest htest reqs
    exact ⟨t, hrun, hcount, hmachine⟩
  · intro cfg regInits memInits image t h
    rw [eq_constructed_of_construct h]
    exact fault_constructed cfg regInits memInits image

end Sys2Proof.Machine
end

section
/-! Proofs of the statements about reset (70): what the reset sequence leaves in every register, word and field, and the
invariant at its end. -/

namespace Sys2Proof.Machine

/-! ### The last initializer (10 R27, 20 R60) -/

section
variable {κ : Type} [DecidableEq κ]

/-- One more initializer is the last one for its own key, and changes nothing for another. -/
theorem lastInit_concat (inits : List (κ × Word)) (p : κ × Word) (k : κ) :
    lastInit (inits ++ [p]) k = if k = p.1 then p.2 else lastInit inits k := by
  by_cases h : k = p.1
  · simp [lastInit, h]
  · simp [lastInit, h, Ne.symm h]

end

/-! ### The initializers applied, one after the other (70 R260) -/

theorem applyRegInits_concat (inits : List (Reg × Word)) (p : Reg × Word) (s : State) :
    applyRegInits (inits ++ [p]) s = (applyRegInits inits s).setReg p.1 p.2 :=
  List.foldl_concat ..

theorem applyMemInits_concat (inits : List (Word × Word)) (p : Word × Word) (s : State) :
    applyMemInits (inits ++ [p]) s = (applyMemInits inits s).writeMem p.1 p.2 :=
  List.foldl_concat ..

/-- Register initializers change the register file only. -/
theorem applyRegInits_frame (inits : List (Reg × Word)) (s : State) :
    applyRegInits inits s = { s with x := (applyRegInits inits s).x } :=
  inits.foldlRecOn (motive := fun t : State => t = { s with x := t.x }) _ rfl fun _ ht p _ =>
    congrArg (State.setReg · p.1 p.2) ht

/-- Memory initializers change the data memory only. -/
theorem applyMemInits_frame (inits : List (Word × Word)) (s : State) :
    applyMemInits inits s = s.setMem (applyMemInits inits s).mem :=
  inits.foldlRecOn (motive := fun t : State => t = s.setMem t.mem) _ rfl fun _ ht p _ =>
    congrArg (State.writeMem · p.1 p.2) ht

/-- From zeroed registers the last initializer wins, by induction over the initializers from the last one back. -/
theorem readReg_applyRegInits (inits : List (Reg × Word)) {s : State} (hs : ∀ r, s.readReg r = 0x00000000#32)
    (r : Reg) : (applyRegInits inits s).readReg r = lastInit inits r := by
  induction inits using List.reverseRecOn with
  | nil => exact hs r
  | append_singleton inits p ih => rw [applyRegInits_concat, State.readReg_setReg, lastInit_concat, ih]

/-- Memory initializers keep the memory canonical (log entry 1). -/
theorem memCanonical_applyMemInits (inits : List (Word × Word)) {s : State} (hs : Memory.wf s.mem = true) :
    Memory.wf (applyMemInits inits s).mem = true :=
  inits.foldlRecOn (motive := fun t : State => Memory.wf t.mem = true) _ hs fun _ ht p _ =>
    Memory.wf_write p.1 p.2 ht

/-- From a zeroed memory the last initializer wins, by induction over the initializers from the last one back. -/
theorem readMem_applyMemInits (inits : List (Word × Word)) {s : State} (hs : s.mem = []) (a : Word) :
    (applyMemInits inits s).readMem a = lastInit inits a := by
  induction inits using List.reverseRecOn with
  | nil => exact congrArg (Memory.read · a.toNat) hs
  | append_singleton inits p ih =>
    have hwf : Memory.wf (applyMemInits inits s).mem = true := memCanonical_applyMemInits inits (by rw [hs]; rfl)
    rw [applyMemInits_concat, lastInit_concat]
    split_ifs with ha
    · rw [ha, State.readMem_writeMem_same _ _ _ hwf]
    · rw [State.readMem_writeMem_ne _ _ ha, ih]

/-- Step 3 of the reset sequence forces registers 5, 6 and 7 and leaves every other (10 R23). -/
theorem readReg_forceConstRegs (s : State) (r : Reg) :
    (forceConstRegs s).readReg r = if isConstReg r then constOf r else s.readReg r := by
  simp only [forceConstRegs, State.readReg_setReg, isConstReg]
  by_cases h7 : r = 7
  · simp [h7]
  · by_cases h6 : r = 6
    · simp [h6]
    · by_cases h5 : r = 5 <;> simp [h5, h6, h7]

/-! ### The state the reset sequence leaves (70 R263) -/

@[simp] theorem readReg_zeroedState (cfg : Config) (r : Reg) : (zeroedState cfg).readReg r = 0x00000000#32 := by
  simp [zeroedState, State.readReg]

section
variable (cfg : Config) (regInits : List (Reg × Word)) (memInits : List (Word × Word)) (image : List IWord)

/-- The reset sequence leaves `State.reset` but for the registers, the memory, the store and the parameters. -/
theorem constructed_frame : constructed cfg regInits memInits image =
    { State.reset with
      x := (forceConstRegs (applyRegInits regInits (zeroedState cfg))).x
      mem := (constructed cfg regInits memInits image).mem
      imem := image
      cfg := cfg } := by
  unfold constructed
  rw [applyMemInits_frame, applyRegInits_frame]
  rfl

/-- Every register at the end of the reset sequence: its constant, or its last initializer (10 R23, R27). -/
theorem readReg_constructed (r : Reg) : (constructed cfg regInits memInits image).readReg r =
    if isConstReg r then constOf r else lastInit regInits r := by
  rw [constructed_frame, ← readReg_applyRegInits regInits (readReg_zeroedState cfg), ← readReg_forceConstRegs]
  rfl

/-- The data memory is still empty when the memory initializers begin: steps 2 and 3 write registers (70 R260). -/
theorem mem_before_memInits : (forceConstRegs (applyRegInits regInits (zeroedState cfg))).mem = [] := by
  rw [applyRegInits_frame]
  rfl

/-- Every memory word at the end of the reset sequence: its last initializer (20 R60). -/
theorem readMem_constructed (a : Word) :
    (constructed cfg regInits memInits image).readMem a = lastInit memInits a :=
  readMem_applyMemInits memInits (mem_before_memInits cfg regInits) a

/-- The reset sequence leaves a canonical memory (log entry 1). -/
theorem memCanonical_constructed : Memory.wf (constructed cfg regInits memInits image).mem = true :=
  memCanonical_applyMemInits memInits (congrArg Memory.wf (mem_before_memInits cfg regInits))

/-- An image that fits is loaded at the end of the reset sequence. -/
theorem construct_of_fits (h : programFits image.length = true) :
    construct cfg regInits memInits image = .next (constructed cfg regInits memInits image) := if_pos h

end

/-- Settles O41: the registers and the memory by the last initializer, every other row from `State.reset`. -/
theorem constructResets : Obligations.ConstructResets := by
  unfold Obligations.ConstructResets
  intro cfg regInits memInits image hlen
  have hreg := readReg_constructed cfg regInits memInits image
  have hmem := readMem_constructed cfg regInits memInits image
  have hfault := fault_constructed cfg regInits memInits image
  have hframe := constructed_frame cfg regInits memInits image
  have hstate : (constructed cfg regInits memInits image).runState =
      if ((constructed cfg regInits memInits image).readReg 0).toNat < image.length then .ready else .halted := by
    rw [State.runState, hfault]
    rfl
  refine ⟨_, construct_of_fits _ _ _ _ (programFits_iff.mpr hlen), ?_, hreg 5, hreg 6, hreg 7,
    congrArg State.mar hframe, congrArg State.mbr hframe, congrArg State.n hframe, congrArg State.z hframe,
    hmem, hfault, rfl, congrArg State.cfg hframe, hstate, congrArg State.causeCode hframe,
    congrArg State.faultIdx hframe, congrArg State.stepCount hframe, congrArg State.stopReq hframe⟩
  intro r h5 h6 h7
  simp [hreg r, isConstReg, h5, h6, h7]

/-- Settles O46: an answer fits the store's bound, and the reset sequence forces the constants, clears the flags and
latches no fault. -/
theorem constructMeetsInvariant : Obligations.ConstructMeetsInvariant := by
  unfold Obligations.ConstructMeetsInvariant
  intro cfg regInits memInits image t h
  have hfits : programFits image.length = true := by
    by_contra hlong
    rw [construct, if_neg hlong] at h
    cases h
  obtain rfl := eq_constructed_of_construct h
  have hreg := readReg_constructed cfg regInits memInits image
  refine ⟨memCanonical_constructed .., hfits, fun _ => ⟨hreg 5, hreg 6, hreg 7⟩, ?_, ?_⟩
  · rw [constructed_frame]
    exact fun hflags => Bool.false_ne_true hflags.1
  · rw [State.faultJustified, fault_constructed]
    trivial

/-- Settles O42: both sides evaluate to the same state. -/
theorem resetIsEmptyConstruct : Obligations.ResetIsEmptyConstruct := by
  unfold Obligations.ResetIsEmptyConstruct
  rfl

/-- Settles O45: the state after reset is one `construct` answers. -/
theorem resetMeetsInvariant : Obligations.ResetMeetsInvariant :=
  constructMeetsInvariant _ _ _ _ _ resetIsEmptyConstruct

end Sys2Proof.Machine
end
